-- ==== Sys2Proof/Word.lean ====
section
/-! DEFINITION. The bit patterns of the Bit Reservoir Buffer: command and response words, the argument field, a byte,
a ring cell, a status code (spec/00_scope.md rule R8, R11, R12). -/

namespace Sys2Proof

/-- A command word, a response's data, the total-bit counter: 32 bits (`DOUT_W`, `TOT_W`, rule R8; rule R73). -/
abbrev Word := BitVec 32

/-- The argument field of a command word: 16 bits (`ARG_W`, rule R8). -/
abbrev Arg := BitVec 16

/-- A byte, the operand of WR8 (rule R75). -/
abbrev Byte := BitVec 8

/-- One ring cell: one storage bit (rule R21). -/
abbrev Bit := BitVec 1

/-- A 3-bit status or cause code (rule R83). -/
abbrev Code := BitVec 3

end Sys2Proof
end

