-- ==== Sys2Proof/Config.lean ====
section
/-! DEFINITION. What an instance of the Bit Reservoir Buffer fixes for its life (spec/00_scope.md rule R8, R9), and the
two values of the check mode. The hardware leaves no result undefined (spec/60_exceptions.md rule R159), so there is no
free value here. -/

namespace Sys2Proof

/-- The check mode, rule R8: `SILENT` (0) is the reference's silent wraparound, `CHECKED` (1) the fault taxonomy. It is
sampled from the `check_mode` input at each reset (rule R171). -/
inductive CheckMode where
  | silent
  | checked
deriving DecidableEq, Repr

/-- The parameters fixed for the life of an instance, rule R8. The capacity is given only as its logarithm, so a
capacity that is no power of two cannot be configured (rule R9). -/
structure Config where
  /-- `CAP_LOG2`; a legal instance has 3 to 15 (rule R9). -/
  capLog2 : Nat
deriving DecidableEq, Repr

/-- `CAP = 2^CAP_LOG2`, the number of ring cells (rule R8). -/
def Config.cap (c : Config) : Nat := 2 ^ c.capLog2

/-- `MASK = CAP - 1`, the wraparound mask (rule R8). -/
def Config.mask (c : Config) : Nat := c.cap - 1

/-- The value the spec gives `CAP_LOG2`: 15, so `CAP` = 32768 (rule R8). -/
def Config.reference : Config := { capLog2 := 15 }

end Sys2Proof
end

