-- ==== Sys2Proof/Syntax.lean ====
section
/-! DEFINITION. The six commands of the Bit Reservoir Buffer (spec/30_encoding.md rule R74, spec/opcode_table.json). -/

namespace Sys2Proof

/-- One constructor per row of the opcode table; an operand is exactly the field of the command word that holds it
(rule R73, R75), so every term is a command some word spells. -/
inductive Instr where
  /-- POS: query the total-bit position (rule R100). -/
  | pos
  /-- READN N: read N bits, N = `ARG` (rule R112). -/
  | readn (n : Arg)
  /-- READ1: read one bit (rule R114). -/
  | read1
  /-- WR8 v: write the 8 bits of the byte `ARG[7:0]` (rule R131). -/
  | wr8 (v : Byte)
  /-- REWBITS N: rewind N bits, N = `ARG` (rule R141). -/
  | rewbits (n : Arg)
  /-- REWBYTES N: rewind N bytes, N = `ARG` (rule R142). -/
  | rewbytes (n : Arg)
deriving DecidableEq, Repr

end Sys2Proof
end

