-- ==== Sys2Proof/WellFormed.lean ====
section
/-! DEFINITION. The checks on what is given to the model from outside: a legal instance (spec/00_scope.md rule R9) and
an operand in its range (spec/30_encoding.md rule R84). A term of Instr needs no check: its operands have exactly the
widths of the command word's fields, so the range checks stand where a number becomes an operand. -/

namespace Sys2Proof

/-- Rule R9: `CAP_LOG2 < 3` or `CAP_LOG2 > 15` is not a legal instance. -/
def Config.legal (c : Config) : Bool := decide (3 ≤ c.capLog2) && decide (c.capLog2 ≤ 15)

/-- Rule R84: a count of READN, REWBITS or REWBYTES is 0 to 65535. -/
def countInRange (n : Nat) : Bool := decide (n ≤ 65535)

/-- Rule R84: the operand of WR8 is 0 to 255. -/
def byteInRange (b : Nat) : Bool := decide (b ≤ 255)

/-- Rule R84: `.word w` emits a 32-bit word. -/
def wordInRange (w : Nat) : Bool := decide (w < 2 ^ 32)

end Sys2Proof
end

