-- ==== Sys2Proof/Decode.lean ====
section
/-! DEFINITION. Decoding and encoding of command words (spec/30_encoding.md rule R73 to R79, R84). A word arrives whole
on `cmd_word` (rule R70), so there is no byte order to decide. -/

namespace Sys2Proof

/-- Why a word spells no command. Every reason is the one cause `ILLEGAL` of rule R77; the names say which part of
rule R76 or R74 the word breaks. -/
inductive DecodeError where
  /-- `RSVD` (bits 27:16) is not 0. -/
  | reservedBits
  /-- `ARG` is not 0 for POS or READ1, or `ARG[15:8]` is not 0 for WR8. -/
  | argumentBits
  /-- `OP` is 0x0 or 0x7 to 0xF. -/
  | opcode
deriving DecidableEq, Repr

/-- `OP`, bits 31:28 (rule R73). -/
def opField (w : Word) : BitVec 4 := w.extractLsb' 28 4

/-- `RSVD`, bits 27:16 (rule R73). -/
def rsvdField (w : Word) : BitVec 12 := w.extractLsb' 16 12

/-- `ARG`, bits 15:0 (rule R73). -/
def argField (w : Word) : Arg := w.extractLsb' 0 16

/-- `ARG[15:8]`, which must be 0 for WR8 (rule R76). -/
def argHigh (a : Arg) : BitVec 8 := a.extractLsb' 8 8

/-- `ARG[7:0]`, the byte of WR8 (rule R75). -/
def argLow (a : Arg) : Byte := a.extractLsb' 0 8

/-- The name of a rejection, for a word whose reserved bits are 0 and that spells no command. -/
def rejectionOf (op : BitVec 4) : DecodeError :=
  if op = 0x1 ∨ op = 0x3 ∨ op = 0x4 then .argumentBits else .opcode

/-- Rule R78, in its order: total on all 2^32 words; a word that decodes to no command is illegal (rule R77). The check
mode plays no part (rule R79). -/
def decode (w : Word) : Except DecodeError Instr :=
  let op := opField w
  let arg := argField w
  if rsvdField w ≠ 0 then .error .reservedBits
  else if op = 0x1 ∧ arg = 0 then .ok .pos
  else if op = 0x2 then .ok (.readn arg)
  else if op = 0x3 ∧ arg = 0 then .ok .read1
  else if op = 0x4 ∧ argHigh arg = 0 then .ok (.wr8 (argLow arg))
  else if op = 0x5 then .ok (.rewbits arg)
  else if op = 0x6 then .ok (.rewbytes arg)
  else .error (rejectionOf op)

/-- The value of `OP` that selects a command (rule R74). -/
def Instr.opcode : Instr → BitVec 4
  | .pos => 0x1
  | .readn _ => 0x2
  | .read1 => 0x3
  | .wr8 _ => 0x4
  | .rewbits _ => 0x5
  | .rewbytes _ => 0x6

/-- The value of `ARG` that carries a command's operand (rule R73, R75). -/
def Instr.arg : Instr → Arg
  | .pos => 0
  | .readn n => n
  | .read1 => 0
  | .wr8 v => v.setWidth 16
  | .rewbits n => n
  | .rewbytes n => n

/-- The word of a command: `OP`, twelve reserved zeros, `ARG` (rule R73, R84). -/
def encode (i : Instr) : Word := (i.opcode ++ (0 : BitVec 12)) ++ i.arg

/-- The host's question: the instruction read from a word whose bits are `w`, of which the opcode table gives `nbits`
(always 32). A word arrives whole (rule R70), so the table's numbering of the bits is the word's own. -/
def decodeTableWord (nbits w : Nat) : Option Instr :=
  match decode (BitVec.ofNat 32 (w % 2 ^ nbits)) with
  | .ok i => some i
  | .error _ => none

end Sys2Proof
end

