-- ==== Sys2Proof/Machine/State.lean ====
section
/-! DEFINITION. The state of the Bit Reservoir Buffer (spec/10_state.md rule R20) with what its response port holds, the
arguments of its step beside it as plain data (rule R40), and the state after reset (spec/70_reset_and_hazards.md rule R170). -/

namespace Sys2Proof.Machine

/-- The ring storage as data: the cells that hold 1, by rising index; an unlisted cell holds 0, the reset value of rule
R39. The smallest addressable unit is one bit (rule R50). -/
abbrev Memory := List (Nat × Bit)

/-- The response status of rule R83; its codes are `Status.code`. -/
inductive Status where
  | ok
  | illegal
  | invalidArg
  | underflow
  | overflow
  | halted
deriving DecidableEq, Repr

/-- The fault causes of rule R151. `HALTED` is a refusal, not a fault (rule R155), so it is no cause. -/
inductive Cause where
  | illegal
  | invalidArg
  | underflow
  | overflow
deriving DecidableEq, Repr

/-- A response, rule R80: the pair (`rsp_status`, `rsp_data`). -/
structure Response where
  status : Status
  data   : Word
deriving DecidableEq, Repr

/-- One act of the host, rule R183 (DESIGN CHOICE, safe: the host's acts are data of the state, log entry 3). -/
inductive HostMove where
  /-- `cmd_valid = 1` with this `cmd_word`, held until it is accepted (rule R71). -/
  | command (w : Word)
  /-- `rsp_ready = 1`: the response that waits, if one does, is taken (rule R72). -/
  | takeResponse
  /-- The platform drives the `check_mode` input to a value (rule R175). -/
  | driveCheckMode (m : CheckMode)
  /-- `rst = 1`, released again: one reset (rule R170). -/
  | reset
deriving DecidableEq, Repr

/-- Why a step stops. The BRB's own faults (rule R151) are no stops: they are next states (rule R154). -/
inductive Fault where
  /-- An access to a cell at or above `CAP`, which does not exist (rule R13). Raised by the one-cell accesses of READ1 and
  WR8 where `RD` or `WR` is outside its range, which no state reached from a reset has (rule R37). Safe. -/
  | ringIndexOutOfRange
deriving DecidableEq, Repr

/-- Why the model refuses a step. -/
inductive Refusal where
  /-- An instruction with no meaning yet; raised by no arm of this model. Safe. -/
  | notModelled (mnemonic : String)
  /-- `CAP_LOG2` is outside 3 to 15: no legal instance, "a model refuses it" (rule R9). Raised by the step. Safe. -/
  | illegalInstance
deriving DecidableEq, Repr

/-- The state of the BRB itself: the ten rows of rule R20 (the cursors and counts as numbers with the invariant of rule
R37) and the response its port holds (rule R72). The parameters and the command stream are no part of it (rule R40). -/
structure Block where
  /-- `ring[0..CAP-1]`, rule R21. -/
  ring   : Memory
  /-- `RD`, the read cursor, rule R24. -/
  rd     : Nat
  /-- `WR`, the write cursor, rule R25. -/
  wr     : Nat
  /-- `TOT`, the total-bit counter, rule R26. -/
  tot    : Word
  /-- `MODE`, the check mode of the session, rule R28. -/
  mode   : CheckMode
  /-- `AVAIL`, the bits written and not yet consumed, rule R29. -/
  avail  : Nat
  /-- `HIST`, the consumed bits that can be re-read, rule R30. -/
  hist   : Nat
  /-- `FLT`, the fault flag, rule R31. -/
  flt    : Bool
  /-- `CAUSE`, the fault cause, rule R31. -/
  cause  : Code
  /-- `BUSY`, reset fill in progress, rule R32. -/
  busy   : Bool
  /-- The response port: the response that waits to be taken (`rsp_valid = 1`), or none, rule R72. -/
  rsp    : Option Response
deriving DecidableEq, Repr

/-- What the host's interface steps: the BRB's state, and beside it what rule R40 calls no state of the BRB and makes an
argument of its step, `Block.step`: the `check_mode` input, the configuration, the host's command stream; and the responses
the host has taken (log entry 3). -/
structure State extends Block where
  /-- The `check_mode` input, rule R34. -/
  strap  : CheckMode
  /-- The instance's parameters, rule R8. -/
  cfg    : Config
  /-- The host's acts still to come, the next one first. -/
  moves  : List HostMove
  /-- The responses the host has taken since the last reset, oldest first (rule R184). -/
  taken  : List Response
deriving DecidableEq, Repr

/-- The state of rule R170: the BRB just reset with `check_mode` at a value, no response waiting. `BUSY` is 0 at the end
of the atomic reset (rule R32). -/
def Block.resetTo (m : CheckMode) : Block where
  ring := []
  rd := 0
  wr := 0
  tot := 0
  mode := m
  avail := 0
  hist := 0
  flt := false
  cause := 0
  busy := false
  rsp := none

/-- An instance just reset, the host idle. -/
def State.resetTo (c : Config) (m : CheckMode) : State where
  toBlock := Block.resetTo m
  strap := m
  cfg := c
  moves := []
  taken := []

/-- The machine right after reset: the spec's own `CAP_LOG2` (15) and the check mode it recommends, CHECKED (rule R8).
DESIGN CHOICE, unsafe: both are parameters, log entry 1; statements take them from the state instead. -/
def State.reset : State := State.resetTo Config.reference .checked

end Sys2Proof.Machine
end

