-- ==== Sys2Proof/Machine/Ops.lean ====
section
/-! DEFINITION. The named operations over the ring, the registers and the response port, and fault entry
(spec/00_scope.md rule R13 to R15, spec/60_exceptions.md rule R154 to R156). -/

namespace Sys2Proof.Machine

/-- The codes of rule R83. -/
def Status.code : Status → Code
  | .ok => 0
  | .illegal => 1
  | .invalidArg => 2
  | .underflow => 3
  | .overflow => 4
  | .halted => 5

/-- The status a fault's response carries: its cause (rule R154). -/
def Cause.status : Cause → Status
  | .illegal => .illegal
  | .invalidArg => .invalidArg
  | .underflow => .underflow
  | .overflow => .overflow

/-- The bit held at an index: 0 where none is listed (rule R39). -/
def Memory.read : Memory → Nat → Bit
  | [], _ => 0
  | (j, b) :: m, i => if i = j then b else Memory.read m i

/-- The storage with a bit put at an index; the canonical form is kept, so a 0 is not listed. -/
def Memory.write : Memory → Nat → Bit → Memory
  | [], i, b => if b = 0 then [] else [(i, b)]
  | (j, c) :: m, i, b =>
    if i < j then (if b = 0 then (j, c) :: m else (i, b) :: (j, c) :: m)
    else if i = j then (if b = 0 then m else (i, b) :: m)
    else (j, c) :: Memory.write m i b

/-- The canonical form from an index on: indices rise strictly, and no listed bit is 0. -/
def Memory.wfFrom : Nat → Memory → Bool
  | _, [] => true
  | lo, (j, b) :: m => decide (lo ≤ j) && decide (b ≠ 0) && Memory.wfFrom (j + 1) m

/-- The canonical form of the storage. -/
def Memory.wf (m : Memory) : Bool := Memory.wfFrom 0 m

/-- Every listed index is below a bound. -/
def Memory.below (cap : Nat) (m : Memory) : Bool := m.all fun p => decide (p.1 < cap)

/-- `CAP` of the state's instance (rule R8). -/
def State.cap (s : State) : Nat := s.cfg.cap

/-- The content of ring cell `i` (rule R21). -/
def State.cell (s : State) (i : Nat) : Bit := Memory.read s.ring i

/-- The ring-index generator `ringIdx(base, k) = (base + k) & MASK`, rule R14. -/
def ringIdx (s : State) (base k : Nat) : Nat := (base + k) &&& s.cfg.mask

/-- `MemRead(i, 1)`, rule R13: only cells below `CAP` exist. -/
def memRead (s : State) (i : Nat) : Option Bit := if i < s.cap then some (s.cell i) else none

/-- The ring replaced, every register kept. -/
def setRing (m : Memory) (s : State) : State := { s with ring := m }

/-- The BRB's state replaced, everything beside it kept. -/
def withBlock (b : Block) (s : State) : State := { s with toBlock := b }

/-- The host's acts still to come replaced. -/
def setMoves (ms : List HostMove) (s : State) : State := { s with moves := ms }

/-- `MemWrite(i, 1, b)`, rule R13: only cells below `CAP` exist. -/
def memWrite (s : State) (i : Nat) (b : Bit) : Option State :=
  if i < s.cap then some (setRing (Memory.write s.ring i b) s) else none

/-- `respond(status, data)`, rule R15: the response is put on the response port (rule R72). -/
def respond (st : Status) (d : Word) (s : State) : State := { s with rsp := some { status := st, data := d } }

/-- Fault entry, rule R154: `FLT` and `CAUSE` are set and the response is (cause, 0); no other state changes. -/
def faultEntry (c : Cause) (s : State) : State := respond c.status 0 { s with flt := true, cause := c.status.code }

/-- The refusal of a command while `FLT = 1`, rule R155: (`HALTED`, 0) and no state change. -/
def refuseHalted (s : State) : State := respond .halted 0 s

/-- A command with its fault condition (rule R15, R152): the fault, or the command performed. -/
def performUnless (c : Option Cause) (s : State) (perform : Host.Outcome State Fault Refusal) :
    Host.Outcome State Fault Refusal :=
  match c with
  | some c => .next (faultEntry c s)
  | none => perform

/-- Reset, rule R170, as one step from any state (rule R173): every register and cell at its reset value, `MODE` from the
`check_mode` input (rule R171), a waiting response discarded. The only way back from a fault (rule R156). -/
def Block.applyReset (strap : CheckMode) (_ : Block) : Block := Block.resetTo strap

/-- The end of a zero-fill that is still in progress (rule R32): every cell 0, `BUSY` 0. DEDUCED, safe: log entry 5. -/
def Block.finishFill (b : Block) : Block := { b with ring := [], busy := false }

/-- Nothing is offered: the BRB holds its state and does nothing (rule R161), but for a fill in progress. -/
def Block.idle (b : Block) : Block := if b.busy then b.finishFill else b

/-- The response port once the host has taken what waits there, rule R72. -/
def Block.freePort (b : Block) : Block := { b with rsp := none }

/-- The response handshake seen from both sides, rule R72: the host takes the response that waits, if one does. -/
def takeResponse (s : State) : State := { withBlock s.toBlock.freePort s with taken := s.taken ++ s.rsp.toList }

/-- `cmd_ready` between resets, rule R71: no fill in progress and no response waiting. -/
def cmdReady (s : State) : Bool := !s.busy && s.rsp.isNone

end Sys2Proof.Machine
end

