-- ==== Sys2Proof/Machine/Operands.lean ====
section
/-! DEFINITION. Operand forms (spec/30_encoding.md rule R75), the MSB-first bit-packer (spec/41_read.md rule R110,
R111), the byte unpacker (spec/42_write.md rule R130) and the cursor moves (spec/41_read.md rule R112,
spec/42_write.md rule R131, spec/43_rewind.md rule R140). -/

namespace Sys2Proof.Machine

/-- `u_32(v)`, rule R11: `v mod 2^32` as a pattern. -/
def u32 (v : Nat) : Word := BitVec.ofNat 32 v

/-- The count of READN and REWBITS: `N = zext(ARG)`, rule R75. -/
def countOf (a : Arg) : Nat := a.toNat

/-- The bit count of REWBYTES: `NB = 8 * N`, computed without truncation, rule R75. -/
def byteCountOf (a : Arg) : Nat := 8 * a.toNat

/-- Bit `v[7 - k]` of a byte, the k-th bit written (rule R130). -/
def byteBit (v : Byte) (k : Nat) : Bit := BitVec.ofBool (v.getLsbD (7 - k))

/-- `Pack(base, N)`, rule R110: N cells from `base` on, the first one the most significant bit, as an unbounded number. -/
def pack (s : State) (base : Nat) : Nat → Nat
  | 0 => 0
  | k + 1 => (pack s base k <<< 1) ||| (s.cell (ringIdx s base k)).toNat

/-- The first `n` of the one-cell writes of WR8: cell `WR + k` receives `v[7 - k]`, in rising k (rule R130, R131). -/
def writeBits (s : State) (v : Byte) : Nat → Option State
  | 0 => some s
  | k + 1 => (writeBits s v k).bind fun t => memWrite t (s.wr + k) (byteBit v k)

/-- A read's move: `RD <- ringIdx(RD, N)`, `TOT <- u_32(TOT + N)` (rule R112). -/
def advanceRead (n : Nat) (s : State) : State := { s with rd := ringIdx s s.rd n, tot := s.tot + u32 n }

/-- The write cursor after a byte: 8 further, and 0 exactly where that is `CAP` (rule R131). -/
def nextWriteCursor (cap wr : Nat) : Nat := if wr + 8 = cap then 0 else wr + 8

/-- A write's move, rule R131. -/
def advanceWrite (s : State) : State := { s with wr := nextWriteCursor s.cap s.wr }

/-- The new read cursor of a rewind, rule R140: `RD - NB` as a signed number, plus `CAP` once where it is negative. -/
def rewoundCursor (s : State) (nb : Nat) : Nat :=
  let r : Int := (s.rd : Int) - (nb : Int)
  (if r < 0 then r + (s.cap : Int) else r).toNat

/-- A rewind's move: the cursor back, `TOT <- u_32(TOT - NB)` (rule R140). -/
def moveBack (nb : Nat) (s : State) : State := { s with rd := rewoundCursor s nb, tot := s.tot - u32 nb }

end Sys2Proof.Machine
end

