-- ==== Sys2Proof/Machine/Flags.lean ====
section
/-! DEFINITION. The fault conditions of spec/60_exceptions.md rule R152, in the order of rule R153, and the CHECKED-mode
counts `AVAIL` and `HIST` they read (spec/10_state.md rule R29, R30). The block has no other flags (rule R33). -/

namespace Sys2Proof.Machine

/-- READN N, rule R152: CHECKED only, the count first, then the unread bits. -/
def readFault (s : State) (n : Nat) : Option Cause :=
  match s.mode with
  | .silent => none
  | .checked =>
    if n = 0 ∨ s.cap < n then some .invalidArg
    else if s.avail < n then some .underflow
    else none

/-- READ1, rule R152: CHECKED only, no unread bit. -/
def read1Fault (s : State) : Option Cause :=
  match s.mode with
  | .silent => none
  | .checked => if s.avail = 0 then some .underflow else none

/-- WR8, rule R152: CHECKED only, the byte would overwrite unread bits. -/
def writeFault (s : State) : Option Cause :=
  match s.mode with
  | .silent => none
  | .checked => if s.cap < s.avail + 8 then some .overflow else none

/-- A rewind by NB bits, rule R152 and R140: SILENT, the cursor would stay negative; CHECKED, the count, then the
retained history. -/
def rewindFault (s : State) (nb : Nat) : Option Cause :=
  match s.mode with
  | .silent => if s.rd + s.cap < nb then some .invalidArg else none
  | .checked =>
    if s.cap < nb then some .invalidArg
    else if s.hist < nb then some .underflow
    else none

/-- `AVAIL` and `HIST` after a read of N bits (rule R112); untouched in SILENT mode (rule R29, R30). -/
def countRead (n : Nat) (s : State) : State :=
  match s.mode with
  | .silent => s
  | .checked => { s with avail := s.avail - n, hist := s.hist + n }

/-- `AVAIL` and `HIST` after a byte write: the new `AVAIL` bounds the history (rule R131, R133). -/
def countWrite (s : State) : State :=
  match s.mode with
  | .silent => s
  | .checked => { s with avail := s.avail + 8, hist := min s.hist (s.cap - (s.avail + 8)) }

/-- `AVAIL` and `HIST` after a rewind by NB bits (rule R140). -/
def countRewind (nb : Nat) (s : State) : State :=
  match s.mode with
  | .silent => s
  | .checked => { s with avail := s.avail + nb, hist := s.hist - nb }

end Sys2Proof.Machine
end

