-- ==== Sys2Proof/Machine/Position.lean ====
section
/-! DEFINITION. The position query (spec/40_position.md). A meaning starts after the halt check and the decoding, as the
pseudocode of every command does; both stand in Machine/Transaction.lean (spec/60_exceptions.md rule R155). -/

namespace Sys2Proof.Machine

/-- POS, rule R100: responds `TOT` as a 32-bit pattern; no state is written. -/
def execPos (s : State) : Host.Outcome State Fault Refusal := .next (respond .ok s.tot s)

end Sys2Proof.Machine
end

