-- ==== Sys2Proof/Machine/Read.lean ====
section
/-! DEFINITION. The two reads (spec/41_read.md). -/

namespace Sys2Proof.Machine

/-- READN N, rule R112: packs N cells from `RD`, moves `RD` and `TOT` on by N, and answers the low 32 bits of the packed
value (rule R111). -/
def execReadn (n : Arg) (s : State) : Host.Outcome State Fault Refusal :=
  performUnless (readFault s (countOf n)) s
    (.next (respond .ok (u32 (pack s s.rd (countOf n))) (countRead (countOf n) (advanceRead (countOf n) s))))

/-- READ1, rule R114: the bit at `RD`, then `RD` and `TOT` on by one. -/
def execRead1 (s : State) : Host.Outcome State Fault Refusal :=
  performUnless (read1Fault s) s
    (match memRead s s.rd with
      | none => .fault .ringIndexOutOfRange
      | some b => .next (respond .ok (b.setWidth 32) (countRead 1 (advanceRead 1 s))))

end Sys2Proof.Machine
end

