-- ==== Sys2Proof/Machine/Rewind.lean ====
section
/-! DEFINITION. The two rewinds over their shared core (spec/43_rewind.md). -/

namespace Sys2Proof.Machine

/-- `Rewind(NB)`, rule R140: the read cursor and the counter back by NB bits; the ring and `WR` play no part. -/
def rewind (nb : Nat) (s : State) : Host.Outcome State Fault Refusal :=
  performUnless (rewindFault s nb) s (.next (respond .ok 0 (countRewind nb (moveBack nb s))))

/-- REWBITS N, rule R141. -/
def execRewbits (n : Arg) (s : State) : Host.Outcome State Fault Refusal := rewind (countOf n) s

/-- REWBYTES N, rule R142: `Rewind(8N)`. -/
def execRewbytes (n : Arg) (s : State) : Host.Outcome State Fault Refusal := rewind (byteCountOf n) s

end Sys2Proof.Machine
end

