-- ==== Sys2Proof/Machine/Write.lean ====
section
/-! DEFINITION. The byte write (spec/42_write.md). -/

namespace Sys2Proof.Machine

/-- WR8 v, rule R131: cells `WR` to `WR + 7` receive the byte, most significant bit first, and `WR` moves on by 8. -/
def execWr8 (v : Byte) (s : State) : Host.Outcome State Fault Refusal :=
  performUnless (writeFault s) s
    (match writeBits s v 8 with
      | none => .fault .ringIndexOutOfRange
      | some t => .next (respond .ok 0 (countWrite (advanceWrite t))))

end Sys2Proof.Machine
end

