-- ==== Sys2Proof/Machine/Dispatch.lean ====
section
/-! DEFINITION. One arm per command: the decoded command performed (spec/60_exceptions.md rule R155, "perform d"). -/

namespace Sys2Proof.Machine

/-- A decoded command performed on a state whose fault flag has been checked (rule R155). -/
def exec (i : Instr) (s : State) : Host.Outcome State Fault Refusal :=
  match i with
  | .pos => Sys2Proof.Machine.execPos s
  | .readn n => Sys2Proof.Machine.execReadn n s
  | .read1 => Sys2Proof.Machine.execRead1 s
  | .wr8 v => Sys2Proof.Machine.execWr8 v s
  | .rewbits n => Sys2Proof.Machine.execRewbits n s
  | .rewbytes n => Sys2Proof.Machine.execRewbytes n s

end Sys2Proof.Machine
end

