-- ==== Sys2Proof/Machine/Transaction.lean ====
section
/-! DEFINITION. One transaction: a command word performed (spec/60_exceptions.md rule R155), the host's acts on the
ports (spec/30_encoding.md rule R70 to R72, spec/70_reset_and_hazards.md rule R170 to R173, R183), the output ports, and
a run with its observation (spec/70_reset_and_hazards.md rule R184). -/

namespace Sys2Proof.Machine

/-- `step(w)` of rule R155: halted, the word is refused before it is decoded; an illegal word faults with `ILLEGAL`; a
command is performed. -/
def performWord (w : Word) (s : State) : Host.Outcome State Fault Refusal :=
  if s.flt then .next (refuseHalted s)
  else
    match decode w with
    | .error _ => .next (faultEntry .illegal s)
    | .ok i => exec i s

/-- An outcome with its next state changed, a stop kept. -/
def onNext {α β : Type} (f : α → β) : Host.Outcome α Fault Refusal → Host.Outcome β Fault Refusal
  | .next a => .next (f a)
  | .fault r => .fault r
  | .refused r => .refused r

/-! ### The step of the BRB: parameters and command stream are its arguments (spec/10_state.md rule R40) -/

/-- The BRB's state in an instance, with no host beside it; no command reads what the host's fields hold. -/
def Block.under (c : Config) (b : Block) : State where
  toBlock := b
  strap := b.mode
  cfg := c
  moves := []
  taken := []

/-- `step(w)` of rule R60 and R155 on the BRB's state. -/
def Block.perform (c : Config) (w : Word) (b : Block) : Host.Outcome Block Fault Refusal :=
  onNext State.toBlock (performWord w (b.under c))

/-- A command word is offered. It is accepted only while `cmd_ready` is 1 (rule R71): a fill in progress ends first (rule
R173), and the host takes a waiting response first (rule R183), the word staying offered meanwhile. -/
def Block.offer (c : Config) (w : Word) (b : Block) : Host.Outcome Block Fault Refusal :=
  if b.busy then .next b.finishFill
  else
    match b.rsp with
    | some _ => .next b.freePort
    | none => b.perform c w

/-- What one act of the host, or none, does to the BRB in a legal instance. -/
def Block.respondTo (c : Config) (strap : CheckMode) (b : Block) : Option HostMove → Host.Outcome Block Fault Refusal
  | none => .next b.idle
  | some (.command w) => b.offer c w
  | some .takeResponse => .next b.freePort
  | some (.driveCheckMode _) => .next b
  | some .reset => .next (b.applyReset strap)

/-- One step of the BRB, rule R40: its arguments are the parameters, the `check_mode` input and what the host does. An
instance outside rule R9 is refused. -/
def Block.step (c : Config) (strap : CheckMode) (act : Option HostMove) (b : Block) :
    Host.Outcome Block Fault Refusal :=
  if c.legal then b.respondTo c strap act else .refused .illegalInstance

/-! ### The host beside it: the stream it draws the arguments from (log entry 3) -/

/-- What the host has left and has received after its next act; the BRB's state is not touched here. A word that is not
accepted stays offered (rule R71). -/
def hostAfter (s : State) : State :=
  match s.moves with
  | [] => s
  | .command _ :: rest =>
    if s.busy then s
    else
      match s.rsp with
      | some r => { s with taken := s.taken ++ [r] }
      | none => { s with moves := rest }
  | .takeResponse :: rest => { s with moves := rest, taken := s.taken ++ s.rsp.toList }
  | .driveCheckMode m :: rest => { s with strap := m, moves := rest }
  | .reset :: rest => { s with moves := rest, taken := [] }

/-- The step of the BRB on the arguments the state supplies, and the host's side of it. -/
def transact (s : State) : Host.Outcome State Fault Refusal :=
  onNext (fun b => withBlock b (hostAfter s)) (s.toBlock.step s.cfg s.strap s.moves.head?)

/-- The state with one more command word offered before every other act, the response port free and no fill in progress,
so that the next step accepts the word (rule R71). -/
def offerNext (w : Word) (s : State) : State :=
  { s with
    moves := .command w :: s.moves
    rsp := none
    busy := false
    taken := s.taken ++ s.rsp.toList }

/-- The output ports of rule R70. `rsp` is `none` where `rsp_valid = 0`, when `rsp_status` and `rsp_data` mean nothing. -/
structure Outputs where
  cmdReady : Bool
  rsp      : Option Response
  flt      : Bool
  fltCause : Code
deriving DecidableEq, Repr

/-- The outputs, rule R70: `flt` and `flt_cause` are driven by `FLT` and `CAUSE` continuously (rule R31); while `rst = 1`
they are all 0 (rule R170). -/
def outputs (rst : Bool) (s : State) : Outputs :=
  if rst then { cmdReady := false, rsp := none, flt := false, fltCause := 0 }
  else { cmdReady := cmdReady s, rsp := s.rsp, flt := s.flt, fltCause := s.cause }

/-- A host that hands over command words and takes the response to each (rule R183). -/
def hostProgram : List Word → List HostMove
  | [] => []
  | w :: ws => .command w :: .takeResponse :: hostProgram ws

/-- The state after a finite sequence of commands, one at a time and in order, each response taken (rule R60). -/
def performAll : List Word → State → Host.Outcome State Fault Refusal
  | [], s => .next s
  | w :: ws, s =>
    match performWord w s with
    | .next t => performAll ws (takeResponse t)
    | .fault f => .fault f
    | .refused r => .refused r

/-- The observation of a run, rule R184: the responses in order, with the final `flt` and `flt_cause`. -/
structure Observation where
  responses : List Response
  flt       : Bool
  fltCause  : Code
deriving DecidableEq, Repr

/-- What the host has observed when it has received the last response, rule R184. -/
def observe (s : State) : Observation := { responses := s.taken, flt := s.flt, fltCause := s.cause }

end Sys2Proof.Machine
end

