-- ==== Sys2Proof/Machine/Step.lean ====
section
/-! DEFINITION. The step, and a command word placed where the step takes its next one. -/

namespace Sys2Proof.Machine

/-- One step of the machine: one act of the host and the transaction it starts (spec/00_scope.md rule R7, R16). -/
def step (s : State) : Host.Outcome State Fault Refusal := transact s

/-- The state with a command word offered as the host's next act: the BRB fetches nothing (spec/10_state.md rule R23), so
the command stream is where it takes its next command. -/
def State.withFetchWord (s : State) (nbits w : Nat) : State := offerNext (BitVec.ofNat 32 (w % 2 ^ nbits)) s

end Sys2Proof.Machine
end

