-- ==== Sys2Proof/Machine/Assembler.lean ====
section
/-! DEFINITION. The command language of spec/30_encoding.md rule R84 and its pseudo-instructions, rule R85: from a line
of text to the command words it stands for. -/

namespace Sys2Proof.Machine

/-- A line's command with its operand as the number written, rule R84 and R85. -/
inductive SourceLine where
  | pos
  | readn (n : Nat)
  | read1
  | wr8 (b : Nat)
  | rewbits (n : Nat)
  | rewbytes (n : Nat)
  /-- `.word w`: the word, unchanged. -/
  | word (w : Nat)
  /-- `READ8`, rule R85. -/
  | read8
  /-- `PEEK n`, rule R85. -/
  | peek (n : Nat)
  /-- `WRSEQ b1, ..., bk`, rule R85. -/
  | wrseq (bs : List Nat)
deriving DecidableEq, Repr

/-- Why a line is an assembly error, rule R84. -/
inductive AsmError where
  /-- The mnemonic is none of rule R84 and R85 (they are upper case). -/
  | unknownMnemonic
  /-- An operand is missing, surplus, or no number of a kind the command takes. -/
  | badOperand
  /-- "An operand out of its range is an assembly error, not an encoding". -/
  | outOfRange
deriving DecidableEq, Repr

/-- Whether every operand is in its range, rule R84. -/
def SourceLine.inRange : SourceLine → Bool
  | .pos => true
  | .readn n => countInRange n
  | .read1 => true
  | .wr8 b => byteInRange b
  | .rewbits n => countInRange n
  | .rewbytes n => countInRange n
  | .word w => wordInRange w
  | .read8 => true
  | .peek n => countInRange n
  | .wrseq bs => bs.all byteInRange

/-- The words a line whose operands are in range stands for: the encodings of rule R84, the expansions of rule R85. -/
def SourceLine.expand : SourceLine → List Word
  | .pos => [encode .pos]
  | .readn n => [encode (.readn (BitVec.ofNat 16 n))]
  | .read1 => [encode .read1]
  | .wr8 b => [encode (.wr8 (BitVec.ofNat 8 b))]
  | .rewbits n => [encode (.rewbits (BitVec.ofNat 16 n))]
  | .rewbytes n => [encode (.rewbytes (BitVec.ofNat 16 n))]
  | .word w => [BitVec.ofNat 32 w]
  | .read8 => [encode (.readn 8)]
  | .peek n => [encode (.readn (BitVec.ofNat 16 n)), encode (.rewbits (BitVec.ofNat 16 n))]
  | .wrseq bs => bs.map fun b => encode (.wr8 (BitVec.ofNat 8 b))

/-- A line assembled, rule R84. -/
def SourceLine.assemble (l : SourceLine) : Except AsmError (List Word) :=
  if l.inRange then .ok l.expand else .error .outOfRange

/-- The value of a digit in a base up to 16. -/
def digitValue (base : Nat) (c : Char) : Option Nat :=
  let v :=
    if '0' ≤ c ∧ c ≤ '9' then some (c.toNat - '0'.toNat)
    else if 'a' ≤ c ∧ c ≤ 'f' then some (c.toNat - 'a'.toNat + 10)
    else if 'A' ≤ c ∧ c ≤ 'F' then some (c.toNat - 'A'.toNat + 10)
    else none
  v.filter fun d => decide (d < base)

/-- Digits read on from a value, most significant first. -/
def digitsFrom (base : Nat) : Nat → List Char → Option Nat
  | v, [] => some v
  | v, c :: cs =>
    match digitValue base c with
    | some d => digitsFrom base (v * base + d) cs
    | none => none

/-- A number with at least one digit. -/
def digits (base : Nat) (cs : List Char) : Option Nat := if cs = [] then none else digitsFrom base 0 cs

/-- A number as rule R84 writes it: decimal, `0x` hexadecimal, or, where `binary` is allowed, `0b` binary. -/
def number (binary : Bool) (cs : List Char) : Option Nat :=
  match cs with
  | '0' :: 'x' :: ds => digits 16 ds
  | '0' :: 'b' :: ds => if binary then digits 2 ds else none
  | ds => digits 10 ds

/-- The text before the comment a `;` starts (rule R84). -/
def withoutComment (cs : List Char) : List Char := cs.takeWhile fun c => decide (c ≠ ';')

/-- The blanks between the words of a line. -/
def isBlank (c : Char) : Bool := decide (c = ' ') || decide (c = '\t')

/-- The pieces of a text between separators, empty pieces left in; `cur` is the piece read so far, reversed. -/
def piecesFrom (sep : Char → Bool) : List Char → List Char → List (List Char)
  | cur, [] => [cur.reverse]
  | cur, c :: cs => if sep c then cur.reverse :: piecesFrom sep [] cs else piecesFrom sep (c :: cur) cs

/-- The words of a text, separated by blanks. -/
def wordsOf (text : List Char) : List (List Char) := (piecesFrom isBlank [] text).filter fun w => decide (w ≠ [])

/-- The one operand of a command. -/
def oneOperand (binary : Bool) (args : List (List Char)) (mk : Nat → SourceLine) : Except AsmError SourceLine :=
  match args with
  | [a] =>
    match number binary a with
    | some n => .ok (mk n)
    | none => .error .badOperand
  | _ => .error .badOperand

/-- A command without an operand. -/
def noOperand (args : List (List Char)) (l : SourceLine) : Except AsmError SourceLine :=
  if args = [] then .ok l else .error .badOperand

/-- A text that holds one number, blanks around it. -/
def soleNumber (text : List Char) : Option Nat :=
  match wordsOf text with
  | [a] => number true a
  | _ => none

/-- The bytes of WRSEQ, separated by commas (rule R85). -/
def byteOperands (text : List Char) : Except AsmError SourceLine :=
  match (piecesFrom (fun c => decide (c = ',')) [] text).mapM soleNumber with
  | some bs => .ok (.wrseq bs)
  | none => .error .badOperand

/-- A mnemonic with the text after it, rule R84 and R85. -/
def parseCommand (m text : List Char) : Except AsmError SourceLine :=
  if m = "POS".toList then noOperand (wordsOf text) .pos
  else if m = "READN".toList then oneOperand false (wordsOf text) .readn
  else if m = "READ1".toList then noOperand (wordsOf text) .read1
  else if m = "WR8".toList then oneOperand true (wordsOf text) .wr8
  else if m = "REWBITS".toList then oneOperand false (wordsOf text) .rewbits
  else if m = "REWBYTES".toList then oneOperand false (wordsOf text) .rewbytes
  else if m = ".word".toList then oneOperand false (wordsOf text) .word
  else if m = "READ8".toList then noOperand (wordsOf text) .read8
  else if m = "PEEK".toList then oneOperand false (wordsOf text) .peek
  else if m = "WRSEQ".toList then byteOperands text
  else .error .unknownMnemonic

/-- A line's text, comment and leading blanks gone, parsed and assembled. -/
def assembleStripped (text : List Char) : Except AsmError (List Word) :=
  match parseCommand (text.takeWhile fun c => !isBlank c) (text.dropWhile fun c => !isBlank c) with
  | .ok l => l.assemble
  | .error e => .error e

/-- One line of text: nothing on a blank or comment line, else one command (rule R84). -/
def assembleLine (text : List Char) : Except AsmError (List Word) :=
  let t := (withoutComment text).dropWhile isBlank
  if t = [] then .ok [] else assembleStripped t

/-- A source text, line by line; the first error stops it. -/
def assembleText : List (List Char) → Except AsmError (List Word)
  | [] => .ok []
  | l :: ls =>
    match assembleLine l with
    | .error e => .error e
    | .ok ws =>
      match assembleText ls with
      | .error e => .error e
      | .ok rest => .ok (ws ++ rest)

end Sys2Proof.Machine
end

