-- ==== Sys2Proof/Safety.lean ====
section
/-! DEFINITION. What a well-formed state is (spec/10_state.md rule R37), what CHECKED mode keeps (rule R38), and what a
faulted run is (spec/70_reset_and_hazards.md rule R184). -/

namespace Sys2Proof.Machine

/-- What the spec says of every state after reset and after every command, without the history: rule R37; the legal
instance of rule R9; `BUSY = 0` (rule R32); the codes `CAUSE` can hold and its agreement with `FLT` (rule R31, R34); the
counts at 0 in SILENT mode (rule R29, R30) and rule R38's items 1 and 2 in CHECKED mode. -/
structure State.WF (s : State) : Prop where
  legal     : s.cfg.legal = true
  ringWf    : Memory.wf s.ring = true
  ringBelow : Memory.below s.cap s.ring = true
  rd_lt     : s.rd < s.cap
  wr_le     : s.wr + 8 ≤ s.cap
  wr_mod    : s.wr % 8 = 0
  notBusy   : s.busy = false
  noFault   : s.flt = false → s.cause = 0
  fault     : s.flt = true → s.cause = 1 ∨ s.cause = 2 ∨ s.cause = 3 ∨ s.cause = 4
  silent    : s.mode = .silent → s.avail = 0 ∧ s.hist = 0
  checked   : s.mode = .checked → s.wr = (s.rd + s.avail) % s.cap ∧ s.avail + s.hist ≤ s.cap

/-- The history of a session that rule R38 speaks of: the bits written since reset, in order, and how many of them lie
before the current position. It is no state of the machine. -/
structure Session where
  written  : List Bit
  consumed : Nat
deriving DecidableEq, Repr

/-- The session right after reset. -/
def Session.start : Session := { written := [], consumed := 0 }

/-- The 8 bits of a byte in the order WR8 writes them, rule R130. -/
def byteBits (v : Byte) : List Bit := (List.range 8).map (byteBit v)

/-- The session after a command that was performed: a write appends its byte, a read moves the position on, a rewind moves
it back (rule R53, R101). -/
def Session.after (h : Session) : Instr → Session
  | .pos => h
  | .readn n => { h with consumed := h.consumed + n.toNat }
  | .read1 => { h with consumed := h.consumed + 1 }
  | .wr8 v => { h with written := h.written ++ byteBits v }
  | .rewbits n => { h with consumed := h.consumed - n.toNat }
  | .rewbytes n => { h with consumed := h.consumed - 8 * n.toNat }

/-- Rule R38 of a CHECKED session: items 1 to 5, with the history `h`. -/
structure Tracks (h : Session) (s : State) : Prop where
  wf       : s.WF
  mode     : s.mode = .checked
  consumed : h.consumed + s.avail = h.written.length
  history  : s.hist ≤ h.consumed
  /-- Item 3: the unread cells hold the unread bits in the order they were written. -/
  unread   : ∀ k, k < s.avail → s.cell (ringIdx s s.rd k) = h.written.getD (h.consumed + k) 0
  /-- Item 4: the retained cells hold the bits that were consumed. -/
  retained : ∀ k, 1 ≤ k → k ≤ s.hist → s.cell ((s.rd + s.cap - k) % s.cap) = h.written.getD (h.consumed - k) 0
  /-- Item 5: `CAP - AVAIL - HIST = max(0, CAP - W)`. -/
  fresh    : s.cap - s.avail - s.hist = s.cap - h.written.length

/-- `rsp_data` of a list of bits, first bit most significant, low 32 bits (rule R110, R111). -/
def packBits (bs : List Bit) : Word := u32 (bs.foldl (fun v b => 2 * v + b.toNat) 0)

/-- A faulted run, rule R184: `flt = 1` at the end. -/
def State.faulted (s : State) : Bool := s.flt

end Sys2Proof.Machine
end

