-- ==== Sys2Proof/Certificates/Slice0/Obligations.lean ====
section
/-! DEFINITION. The statements for the provers, each from the rules of the spec its docstring names. -/

open Sys2Proof Sys2Proof.Machine

namespace Sys2Proof.Machine

/-! ### Words the statements use -/

/-- The sum form of `Pack(base, N)`, rule R110. -/
def cellSum (s : State) (base n : Nat) : Nat :=
  ∑ k ∈ Finset.range n, (s.cell ((base + k) % s.cap)).toNat * 2 ^ (n - 1 - k)

/-- The bit count a rewind command stands for, rule R141, R142. -/
def RewindsBy (i : Instr) (nb : Nat) : Prop :=
  (∃ n : Arg, i = .rewbits n ∧ nb = n.toNat) ∨ (∃ n : Arg, i = .rewbytes n ∧ nb = 8 * n.toNat)

/-- Rule R152 as a table: the cause code a word raises, 0 where it raises none. -/
def faultCode (s : State) (w : Word) : Nat :=
  match decode w, s.mode with
  | .error _, _ => 1
  | .ok .pos, _ => 0
  | .ok (.readn _), .silent => 0
  | .ok (.readn n), .checked => if n.toNat = 0 ∨ n.toNat > s.cap then 2 else if n.toNat > s.avail then 3 else 0
  | .ok .read1, .silent => 0
  | .ok .read1, .checked => if s.avail = 0 then 3 else 0
  | .ok (.wr8 _), .silent => 0
  | .ok (.wr8 _), .checked => if s.avail + 8 > s.cap then 4 else 0
  | .ok (.rewbits n), .silent => if n.toNat > s.rd + s.cap then 2 else 0
  | .ok (.rewbits n), .checked => if n.toNat > s.cap then 2 else if n.toNat > s.hist then 3 else 0
  | .ok (.rewbytes n), .silent => if 8 * n.toNat > s.rd + s.cap then 2 else 0
  | .ok (.rewbytes n), .checked => if 8 * n.toNat > s.cap then 2 else if 8 * n.toNat > s.hist then 3 else 0

/-- The net bits a performed command consumes, rule R101. -/
def netBits : Instr → Int
  | .pos => 0
  | .readn n => n.toNat
  | .read1 => 1
  | .wr8 _ => 0
  | .rewbits n => -n.toNat
  | .rewbytes n => -(8 * n.toNat)

/-- The net bits of a sequence of words with the responses they got: only a successful command counts, rule R101. -/
def netBitsOf : List (Word × Response) → Int
  | [] => 0
  | (w, r) :: l =>
    (match decode w with
      | .ok i => if r.status = .ok then netBits i else 0
      | .error _ => 0) + netBitsOf l

end Sys2Proof.Machine

/-! ### Decoding, encoding, the command language -/

/-- Rule R73 to R78: decoding and encoding are inverse to each other, for every command, every operand and every word. -/
def Obligations.DecodeEncodeAgree : Prop :=
  ∀ (w : Word) (i : Instr), decode w = .ok i ↔ w = encode i

/-- Rule R76, R77, with the fields as arithmetic on the word: exactly these words are illegal, and each one faults with
`ILLEGAL` in either mode, with no state but `FLT` and `CAUSE` changed. -/
def Obligations.IllegalWordsFault : Prop :=
  ∀ (w : Word) (s : State), s.flt = false →
    ((w.toNat / 2 ^ 16 % 2 ^ 12 ≠ 0 ∨ w.toNat / 2 ^ 28 = 0 ∨ 7 ≤ w.toNat / 2 ^ 28 ∨
        (w.toNat / 2 ^ 28 = 1 ∨ w.toNat / 2 ^ 28 = 3) ∧ w.toNat % 2 ^ 16 ≠ 0 ∨
        w.toNat / 2 ^ 28 = 4 ∧ w.toNat % 2 ^ 16 / 2 ^ 8 ≠ 0) →
      (decode w).toOption = none ∧
        performWord w s = .next { s with flt := true, cause := 1, rsp := some { status := .illegal, data := 0 } }) ∧
    (¬(w.toNat / 2 ^ 16 % 2 ^ 12 ≠ 0 ∨ w.toNat / 2 ^ 28 = 0 ∨ 7 ≤ w.toNat / 2 ^ 28 ∨
        (w.toNat / 2 ^ 28 = 1 ∨ w.toNat / 2 ^ 28 = 3) ∧ w.toNat % 2 ^ 16 ≠ 0 ∨
        w.toNat / 2 ^ 28 = 4 ∧ w.toNat % 2 ^ 16 / 2 ^ 8 ≠ 0) →
      (decode w).toOption.isSome)

/-- Rule R86: the encoding examples, read in both directions. -/
def Obligations.EncodingExamples : Prop :=
  (SourceLine.pos.assemble = .ok [0x10000000] ∧ decode 0x10000000 = .ok .pos) ∧
  ((SourceLine.readn 4).assemble = .ok [0x20000004] ∧ decode 0x20000004 = .ok (.readn 4)) ∧
  ((SourceLine.readn 32768).assemble = .ok [0x20008000] ∧ decode 0x20008000 = .ok (.readn 32768)) ∧
  (SourceLine.read1.assemble = .ok [0x30000000] ∧ decode 0x30000000 = .ok .read1) ∧
  ((SourceLine.wr8 0xB4).assemble = .ok [0x400000B4] ∧ decode 0x400000B4 = .ok (.wr8 0xB4)) ∧
  ((SourceLine.rewbits 8).assemble = .ok [0x50000008] ∧ decode 0x50000008 = .ok (.rewbits 8)) ∧
  ((SourceLine.rewbytes 1).assemble = .ok [0x60000001] ∧ decode 0x60000001 = .ok (.rewbytes 1)) ∧
  ((SourceLine.word 0).assemble = .ok [0] ∧ (decode 0).toOption = none) ∧
  ((SourceLine.word 0x30000001).assemble = .ok [0x30000001] ∧ (decode 0x30000001).toOption = none) ∧
  ((SourceLine.word 0x40000100).assemble = .ok [0x40000100] ∧ (decode 0x40000100).toOption = none) ∧
  ((SourceLine.word 0x20010004).assemble = .ok [0x20010004] ∧ (decode 0x20010004).toOption = none) ∧
  ((SourceLine.word 0x70000000).assemble = .ok [0x70000000] ∧ (decode 0x70000000).toOption = none)

/-- Rule R84, its encodings and ranges: the word of every command for every operand, and an assembly error for an operand
out of range. -/
def Obligations.AssembledWords : Prop :=
  SourceLine.pos.assemble = .ok [0x10000000] ∧ SourceLine.read1.assemble = .ok [0x30000000] ∧
  ∀ n : Nat,
    ((SourceLine.readn n).assemble = if n ≤ 65535 then .ok [0x20000000 ||| BitVec.ofNat 32 n] else .error .outOfRange) ∧
    ((SourceLine.wr8 n).assemble = if n ≤ 255 then .ok [0x40000000 ||| BitVec.ofNat 32 n] else .error .outOfRange) ∧
    ((SourceLine.rewbits n).assemble = if n ≤ 65535 then .ok [0x50000000 ||| BitVec.ofNat 32 n] else .error .outOfRange) ∧
    ((SourceLine.rewbytes n).assemble = if n ≤ 65535 then .ok [0x60000000 ||| BitVec.ofNat 32 n] else .error .outOfRange) ∧
    ((SourceLine.word n).assemble = if n < 2 ^ 32 then .ok [BitVec.ofNat 32 n] else .error .outOfRange)

/-- Rule R85: each pseudo-instruction is its expansion into real commands. -/
def Obligations.PseudoInstructionExpansions : Prop :=
  SourceLine.read8.assemble = (SourceLine.readn 8).assemble ∧
  (∀ n : Nat, n ≤ 65535 →
    (SourceLine.peek n).assemble = .ok [0x20000000 ||| BitVec.ofNat 32 n, 0x50000000 ||| BitVec.ofNat 32 n]) ∧
  (∀ bs : List Nat, (∀ b ∈ bs, b ≤ 255) →
    (SourceLine.wrseq bs).assemble = .ok (bs.map fun b => 0x40000000 ||| BitVec.ofNat 32 b))

/-- Rule R83: the status codes, none of which is 6 or 7. -/
def Obligations.StatusCodes : Prop :=
  Status.ok.code = 0 ∧ Status.illegal.code = 1 ∧ Status.invalidArg.code = 2 ∧ Status.underflow.code = 3 ∧
  Status.overflow.code = 4 ∧ Status.halted.code = 5 ∧
  (∀ st : Status, st.code ≠ 6 ∧ st.code ≠ 7) ∧ (∀ c : Cause, c.status.code ≠ 0 ∧ c.status.code ≠ 5)

/-! ### The commands -/

/-- Rule R100: POS, its word, its answer in every state, nothing else written; every other word with its opcode is illegal,
and after a fault it is refused. -/
def Obligations.PosMeaning : Prop :=
  decode 0x10000000 = .ok .pos ∧
  (∀ s : State, exec .pos s = .next { s with rsp := some { status := .ok, data := s.tot } }) ∧
  (∀ (s : State) (w : Word), s.flt = false → w.toNat / 2 ^ 28 = 1 → w ≠ 0x10000000 →
    performWord w s = .next (faultEntry .illegal s)) ∧
  (∀ s : State, s.flt = true → performWord 0x10000000 s = .next { s with rsp := some { status := .halted, data := 0 } })

/-- Rule R110, R111: the packed value is the weighted sum of the cells, N bits make a number below 2^N, so it is exact up
to 32 bits, and above it is the packing of the last 32 bits read; a performed read answers its low 32 bits. -/
def Obligations.PackedValue : Prop :=
  ∀ s : State,
    (∀ base n : Nat,
      pack s base n = cellSum s base n ∧ pack s base n < 2 ^ n ∧
      (n ≤ 32 → (u32 (pack s base n)).toNat = cellSum s base n) ∧
      (32 ≤ n → u32 (pack s base n) = u32 (cellSum s (base + (n - 32)) 32))) ∧
    (∀ (n : Arg) (t : State) (d : Word), exec (.readn n) s = .next t → t.rsp = some { status := .ok, data := d } →
      d = u32 (pack s s.rd n.toNat)) ∧
    (∀ (t : State) (d : Word), exec .read1 s = .next t → t.rsp = some { status := .ok, data := d } →
      d = u32 (pack s s.rd 1))

/-- Rule R112: READN N in every case: its word; SILENT, every count is performed; CHECKED, a count out of range, a count
above the unread bits, and a count that is performed. All state but the fields named keeps its value. -/
def Obligations.ReadnMeaning : Prop :=
  ∀ (s : State) (n : Arg),
    decode (0x20000000 ||| n.setWidth 32) = .ok (.readn n) ∧
    (s.mode = .silent →
      exec (.readn n) s = .next { s with
        rd := (s.rd + n.toNat) % s.cap
        tot := BitVec.ofNat 32 (s.tot.toNat + n.toNat)
        rsp := some { status := .ok, data := BitVec.ofNat 32 (cellSum s s.rd n.toNat) } }) ∧
    (s.mode = .checked → n.toNat = 0 ∨ s.cap < n.toNat → exec (.readn n) s = .next (faultEntry .invalidArg s)) ∧
    (s.mode = .checked → 1 ≤ n.toNat → n.toNat ≤ s.cap → s.avail < n.toNat →
      exec (.readn n) s = .next (faultEntry .underflow s)) ∧
    (s.mode = .checked → 1 ≤ n.toNat → n.toNat ≤ s.cap → n.toNat ≤ s.avail →
      exec (.readn n) s = .next { s with
        rd := (s.rd + n.toNat) % s.cap
        tot := BitVec.ofNat 32 (s.tot.toNat + n.toNat)
        avail := s.avail - n.toNat
        hist := s.hist + n.toNat
        rsp := some { status := .ok, data := BitVec.ofNat 32 (cellSum s s.rd n.toNat) } })

/-- Rule R114: READ1 in every case of a well-formed state; every other word with its opcode is illegal. -/
def Obligations.Read1Meaning : Prop :=
  decode 0x30000000 = .ok .read1 ∧
  (∀ (s : State) (w : Word), s.flt = false → w.toNat / 2 ^ 28 = 3 → w ≠ 0x30000000 →
    performWord w s = .next (faultEntry .illegal s)) ∧
  ∀ s : State, s.WF →
    (s.mode = .silent →
      exec .read1 s = .next { s with
        rd := (s.rd + 1) % s.cap
        tot := BitVec.ofNat 32 (s.tot.toNat + 1)
        rsp := some { status := .ok, data := BitVec.ofNat 32 (s.cell s.rd).toNat } }) ∧
    (s.mode = .checked → s.avail = 0 → exec .read1 s = .next (faultEntry .underflow s)) ∧
    (s.mode = .checked → 1 ≤ s.avail →
      exec .read1 s = .next { s with
        rd := (s.rd + 1) % s.cap
        tot := BitVec.ofNat 32 (s.tot.toNat + 1)
        avail := s.avail - 1
        hist := s.hist + 1
        rsp := some { status := .ok, data := BitVec.ofNat 32 (s.cell s.rd).toNat } })

/-- Rule R115: READ1 is READN 1, in either mode. -/
def Obligations.Read1EqualsReadn1 : Prop :=
  ∀ s : State, s.WF → exec .read1 s = exec (.readn 1) s

/-- Rule R113 and 90_conflicts.md C2: a performed read that ends on the last cell leaves the read cursor at 0. -/
def Obligations.ReadEndingOnLastCell : Prop :=
  ∀ (s : State) (n : Arg), s.rd + n.toNat = s.cap → (s.mode = .checked → 1 ≤ n.toNat ∧ n.toNat ≤ s.avail) →
    ∃ t, exec (.readn n) s = .next t ∧ t.rd = 0

/-- Rule R130, R131: WR8 in every case of a well-formed state: its word, the overflow, and the write, with the eight cells,
every other cell, the cursor, the counts and the frame; every other word with its opcode is illegal. -/
def Obligations.Wr8Meaning : Prop :=
  (∀ (s : State) (w : Word), s.flt = false → w.toNat / 2 ^ 28 = 4 → 2 ^ 8 ≤ w.toNat % 2 ^ 28 →
    performWord w s = .next (faultEntry .illegal s)) ∧
  ∀ (s : State) (v : Byte), s.WF →
    decode (0x40000000 ||| v.setWidth 32) = .ok (.wr8 v) ∧
    (s.mode = .checked → s.cap < s.avail + 8 → exec (.wr8 v) s = .next (faultEntry .overflow s)) ∧
    ((s.mode = .checked → s.avail + 8 ≤ s.cap) →
      ∃ t, exec (.wr8 v) s = .next t ∧
        (∀ k, k < 8 → (t.cell (s.wr + k)).toNat = v.toNat / 2 ^ (7 - k) % 2) ∧
        (∀ i, i < s.wr ∨ s.wr + 8 ≤ i → t.cell i = s.cell i) ∧
        t = { s with
          ring := t.ring
          wr := if s.wr + 8 = s.cap then 0 else s.wr + 8
          avail := if s.mode = .checked then s.avail + 8 else s.avail
          hist := if s.mode = .checked then min s.hist (s.cap - (s.avail + 8)) else s.hist
          rsp := some { status := .ok, data := 0 } })

/-- Rule R132: the write cursor starts at 0 and gains 8 or wraps to 0, the write stays in the ring, and the
compare-and-wrap is masked arithmetic. -/
def Obligations.WriteCursorMaskedForm : Prop :=
  (∀ (c : Config) (m : CheckMode), (State.resetTo c m).wr = 0) ∧
  ∀ (s : State) (v : Byte), s.WF → (s.mode = .checked → s.avail + 8 ≤ s.cap) →
    s.cap % 8 = 0 ∧ s.wr % 8 = 0 ∧ (∀ k, k ≤ 7 → s.wr + k < s.cap) ∧
    ∃ t, exec (.wr8 v) s = .next t ∧ (t.wr = s.wr + 8 ∨ t.wr = 0) ∧ t.wr = (s.wr + 8) &&& s.cfg.mask

/-- Rule R133: a write that takes cells no write has reached leaves the history alone, another one shrinks it so that
`AVAIL + HIST = CAP`; past the new `HIST` a rewind underflows. -/
def Obligations.HistoryUnderWrite : Prop :=
  ∀ (h : Session) (s : State) (v : Byte), Tracks h s → s.avail + 8 ≤ s.cap →
    ∃ t, exec (.wr8 v) s = .next t ∧ t.hist = min s.hist (s.cap - t.avail) ∧
      (h.written.length + 8 ≤ s.cap → t.hist = s.hist) ∧
      (s.cap < h.written.length + 8 → t.avail + t.hist = s.cap) ∧
      (∀ n : Arg, t.hist < n.toNat → n.toNat ≤ s.cap → exec (.rewbits n) t = .next (faultEntry .underflow t))

/-- Rule R140 to R142: both rewinds in every case of a well-formed state, on the bit count NB. -/
def Obligations.RewindMeaning : Prop :=
  (∀ n : Arg, decode (0x50000000 ||| n.setWidth 32) = .ok (.rewbits n) ∧
    decode (0x60000000 ||| n.setWidth 32) = .ok (.rewbytes n)) ∧
  ∀ (s : State) (i : Instr) (nb : Nat), s.WF → RewindsBy i nb →
    (s.mode = .silent → s.rd + s.cap < nb → exec i s = .next (faultEntry .invalidArg s)) ∧
    (s.mode = .silent → nb ≤ s.rd + s.cap →
      exec i s = .next { s with
        rd := (((s.rd : Int) - nb) % s.cap).toNat
        tot := BitVec.ofInt 32 ((s.tot.toNat : Int) - nb)
        rsp := some { status := .ok, data := 0 } }) ∧
    (s.mode = .checked → s.cap < nb → exec i s = .next (faultEntry .invalidArg s)) ∧
    (s.mode = .checked → nb ≤ s.cap → s.hist < nb → exec i s = .next (faultEntry .underflow s)) ∧
    (s.mode = .checked → nb ≤ s.cap → nb ≤ s.hist →
      exec i s = .next { s with
        rd := (((s.rd : Int) - nb) % s.cap).toNat
        tot := BitVec.ofInt 32 ((s.tot.toNat : Int) - nb)
        avail := s.avail + nb
        hist := s.hist - nb
        rsp := some { status := .ok, data := 0 } })

/-- Rule R143: a byte rewind is the bit rewind by eight times as many, wherever a REWBITS word can say it, and `Rewind(8N)`
for every N. -/
def Obligations.RewbytesEqualsRewbits : Prop :=
  ∀ (s : State) (n : Nat),
    (n ≤ 8191 → exec (.rewbytes (BitVec.ofNat 16 n)) s = exec (.rewbits (BitVec.ofNat 16 (8 * n))) s) ∧
    (n ≤ 65535 → exec (.rewbytes (BitVec.ofNat 16 n)) s = rewind (8 * n) s)

/-- Rule R144: in SILENT mode exactly the illegal words and the rewinds longer than `RD + CAP` fault, the first with
`ILLEGAL`, the second with `INVALID_ARG`; a shorter rewind moves the cursor modulo `CAP`. -/
def Obligations.SilentModeFaults : Prop :=
  ∀ (s t : State) (w : Word), s.WF → s.mode = .silent → s.flt = false → performWord w s = .next t →
    (t.flt = true ↔ (decode w).toOption = none ∨ ∃ i nb, decode w = .ok i ∧ RewindsBy i nb ∧ s.rd + s.cap < nb) ∧
    ((decode w).toOption = none → t.cause = 1) ∧
    ((∃ i nb, decode w = .ok i ∧ RewindsBy i nb ∧ s.rd + s.cap < nb) → t.cause = 2) ∧
    (∀ i nb, decode w = .ok i → RewindsBy i nb → nb ≤ s.rd + s.cap → t.rd = (((s.rd : Int) - nb) % s.cap).toNat)

/-- Rule R145: a read, the rewind by as many bits and the read again: the same answer and the same state. -/
def Obligations.RewindIdempotence : Prop :=
  ∀ (s t : State) (n : Arg) (d : Word), s.WF → 1 ≤ n.toNat → n.toNat ≤ s.cap →
    exec (.readn n) s = .next t → t.rsp = some { status := .ok, data := d } →
    ∃ u, exec (.rewbits n) t = .next u ∧ u.rsp = some { status := .ok, data := 0 } ∧ exec (.readn n) u = .next t

/-- Rule R117, round trip: a byte written where the read cursor stands is what the next eight bits read. -/
def Obligations.ByteRoundTrip : Prop :=
  ∀ (s : State) (v : Byte), s.WF → s.rd = s.wr → (s.mode = .checked → s.avail + 8 ≤ s.cap) →
    ∃ t u, exec (.wr8 v) s = .next t ∧ exec (.readn 8) t = .next u ∧
      u.rsp = some { status := .ok, data := v.setWidth 32 }

/-! ### A CHECKED session and its history -/

/-- Rule R38: right after reset, and after every command word whatever it is, the five items hold of the history: extended
by a command performed, as it was after a fault or a refusal. -/
def Obligations.CheckedSessionTracksHistory : Prop :=
  (∀ c : Config, c.legal = true → Tracks Session.start (State.resetTo c .checked)) ∧
  ∀ (h : Session) (s t : State) (w : Word), Tracks h s → performWord w s = .next t →
    (∃ d i, t.rsp = some { status := .ok, data := d } ∧ decode w = .ok i ∧ Tracks (h.after i) t) ∨
    (∃ st, st ≠ .ok ∧ t.rsp = some { status := st, data := 0 } ∧ Tracks h t)

/-- Rule R53: in a CHECKED session a performed read answers the next bits of the one stream that was written, whatever the
widths of the writes and reads before it, and across the end of the ring. -/
def Obligations.CheckedReadsReturnWrittenStream : Prop :=
  ∀ (h : Session) (s : State) (n : Arg), Tracks h s → 1 ≤ n.toNat → n.toNat ≤ s.avail →
    ∃ t, exec (.readn n) s = .next t ∧
      t.rsp = some { status := .ok, data := packBits ((h.written.drop h.consumed).take n.toNat) }

/-! ### Invariants and progress -/

/-- Rule R37 and its companions: every step from a well-formed state that answers a next state answers a well-formed one,
whatever the host does. -/
def Obligations.StepKeepsWellFormed : Prop :=
  ∀ s t : State, s.WF → step s = .next t → t.WF

/-- The state after reset is well formed, in every legal instance and either mode. -/
def Obligations.ResetWellFormed : Prop :=
  (∀ (c : Config) (m : CheckMode), c.legal = true → (State.resetTo c m).WF) ∧ State.reset.WF

/-- No component of the block is missing and no access leaves the ring: from a well-formed state the step always answers a
next state. -/
def Obligations.WellFormedStepAnswers : Prop :=
  ∀ s : State, s.WF → ∃ t, step s = .next t

/-! ### Faults and the halt -/

/-- Rule R154: a word that faults sets `FLT` and `CAUSE` and answers (cause, 0); nothing else changes. -/
def Obligations.FaultsArePrecise : Prop :=
  ∀ (s t : State) (w : Word), s.flt = false → performWord w s = .next t → t.flt = true →
    ∃ c : Cause, t = { s with flt := true, cause := c.status.code, rsp := some { status := c.status, data := 0 } }

/-- Rule R152: for every word, mode and well-formed state, whether the word faults and with which cause. -/
def Obligations.FaultConditionTable : Prop :=
  ∀ (s t : State) (w : Word), s.WF → s.flt = false → performWord w s = .next t →
    t.cause.toNat = faultCode s w ∧ (t.flt = true ↔ faultCode s w ≠ 0)

/-- Rule R153: a halted block reports `HALTED` whatever the word; an illegal word `ILLEGAL` whatever the state; a count out
of range `INVALID_ARG` whatever `AVAIL` and `HIST` hold. -/
def Obligations.FaultPriority : Prop :=
  ∀ (s : State) (w : Word),
    (s.flt = true → performWord w s = .next { s with rsp := some { status := .halted, data := 0 } }) ∧
    (s.flt = false → (decode w).toOption = none → performWord w s = .next (faultEntry .illegal s)) ∧
    (∀ n : Arg, s.flt = false → s.mode = .checked → decode w = .ok (.readn n) → n.toNat = 0 ∨ s.cap < n.toNat →
      performWord w s = .next (faultEntry .invalidArg s)) ∧
    (∀ i nb, s.flt = false → s.mode = .checked → decode w = .ok i → RewindsBy i nb → s.cap < nb →
      performWord w s = .next (faultEntry .invalidArg s))

/-- Rule R155: the halt check, then the decoding, then the command. -/
def Obligations.CommandWordPerformed : Prop :=
  ∀ (s : State) (w : Word),
    (s.flt = true → performWord w s = .next { s with rsp := some { status := .halted, data := 0 } }) ∧
    (s.flt = false → ∀ e, decode w = .error e → performWord w s = .next (faultEntry .illegal s)) ∧
    (s.flt = false → ∀ i, decode w = .ok i → performWord w s = exec i s)

/-- Rule R156: whatever the host does next, a faulted block stays faulted with its first cause, or is reset, which clears
every piece of state. -/
def Obligations.OnlyResetClearsFault : Prop :=
  ∀ s t : State, s.flt = true → step s = .next t →
    (t.flt = true ∧ t.cause = s.cause) ∨
    (∃ rest, s.moves = .reset :: rest ∧ t = { State.resetTo s.cfg s.strap with moves := rest })

/-- Rule R155, R156 over a run: a faulted block answers `HALTED` to every word of every sequence, and keeps all its
state. -/
def Obligations.FaultedRunAnswersHalted : Prop :=
  ∀ (s : State) (ws : List Word), s.faulted = true → s.rsp = none →
    performAll ws s =
      .next { s with taken := s.taken ++ List.replicate ws.length { status := .halted, data := 0 } }

/-! ### Reset and the mode -/

/-- Rule R170: the reset step from any state of a legal instance: every cell and register at its reset value, `MODE` from
the `check_mode` input, no response; and while `rst = 1` the outputs are 0. -/
def Obligations.ResetReachesResetState : Prop :=
  ∀ (s : State) (rest : List HostMove), s.cfg.legal = true → s.moves = .reset :: rest →
    ∃ t, step s = .next t ∧ (∀ i, t.cell i = 0) ∧ t.rd = 0 ∧ t.wr = 0 ∧ t.tot = 0 ∧ t.mode = s.strap ∧ t.avail = 0 ∧
      t.hist = 0 ∧ t.flt = false ∧ t.cause = 0 ∧ t.busy = false ∧ t.rsp = none ∧ t.moves = rest ∧ t.cfg = s.cfg ∧
      cmdReady t = true ∧ outputs true s = { cmdReady := false, rsp := none, flt := false, fltCause := 0 }

/-- Rule R170, its loop: writing 0 to every cell of a ring leaves exactly the storage the reset state has. -/
def Obligations.ZeroFillEmptiesRing : Prop :=
  ∀ (cap : Nat) (m : Memory), Memory.wf m = true → Memory.below cap m = true →
    (List.range cap).foldl (fun m i => Memory.write m i 0) m = (State.resetTo Config.reference .checked).ring

/-- Rule R171: no step changes `MODE` but a reset, which loads the `check_mode` input; a change of the input by itself
changes no register. -/
def Obligations.ModeChangesOnlyAtReset : Prop :=
  ∀ s t : State, step s = .next t →
    (t.mode = s.mode ∨ ∃ rest, s.moves = .reset :: rest) ∧
    (∀ rest, s.moves = .reset :: rest → t.mode = s.strap) ∧
    (∀ m rest, s.moves = .driveCheckMode m :: rest → t = { s with strap := m, moves := rest })

/-- Rule R175, R177: before any write the ring lists nothing and no bit is unread or retained, which reset leaves and every
command but WR8 keeps; while that is so every read in SILENT mode, of any count, answers 0, and in CHECKED mode every read of 1
to `CAP` bits underflows. -/
def Obligations.UnwrittenCellsReadZero : Prop :=
  (∀ (c : Config) (m : CheckMode),
    (State.resetTo c m).ring = [] ∧ (State.resetTo c m).avail = 0 ∧ (State.resetTo c m).hist = 0) ∧
  (∀ (i : Instr) (s t : State), (∀ v, i ≠ .wr8 v) → s.ring = [] → s.avail = 0 → s.hist = 0 → exec i s = .next t →
    t.ring = [] ∧ t.avail = 0 ∧ t.hist = 0) ∧
  ∀ s : State, s.WF →
    (s.mode = .silent → s.ring = [] →
      (∀ n : Arg, ∃ t, exec (.readn n) s = .next t ∧ t.rsp = some { status := .ok, data := 0 }) ∧
      ∃ t, exec .read1 s = .next t ∧ t.rsp = some { status := .ok, data := 0 }) ∧
    (s.mode = .checked → s.avail = 0 →
      (∀ n : Arg, 1 ≤ n.toNat → n.toNat ≤ s.cap → exec (.readn n) s = .next (faultEntry .underflow s)) ∧
      exec .read1 s = .next (faultEntry .underflow s))

/-! ### Frames and independence -/

/-- Rule R24 to R26, R28 and R21, as a frame over all commands: what each of them leaves unchanged. -/
def Obligations.CommandsWriteOnlyTheirRegisters : Prop :=
  ∀ (i : Instr) (s t : State), exec i s = .next t →
    (t.mode = s.mode ∧ t.busy = s.busy ∧ t.strap = s.strap ∧ t.cfg = s.cfg ∧ t.moves = s.moves ∧ t.taken = s.taken) ∧
    ((∀ v, i ≠ .wr8 v) → t.wr = s.wr ∧ ∀ a, t.cell a = s.cell a) ∧
    ((i = .pos ∨ ∃ v, i = .wr8 v) → t.rd = s.rd ∧ t.tot = s.tot) ∧
    (i = .pos ∨ s.mode = .silent → t.avail = s.avail ∧ t.hist = s.hist) ∧
    (i = .pos → t.flt = s.flt ∧ t.cause = s.cause) ∧
    ((∃ d, t.rsp = some { status := .ok, data := d }) → t.flt = s.flt ∧ t.cause = s.cause)

/-- Rule R65: after any step a cell holds what it held, unless a WR8 was performed and the cell is one of the eight from the
write cursor, which holds its bit of the byte, or the step was a reset, which leaves 0. -/
def Obligations.CellsKeepLastWrite : Prop :=
  ∀ (s t : State) (a : Nat), s.WF → step s = .next t →
    t.cell a = s.cell a ∨
    (∃ w v rest, s.moves = .command w :: rest ∧ decode w = .ok (.wr8 v) ∧ s.wr ≤ a ∧ a < s.wr + 8 ∧
      (t.cell a).toNat = v.toNat / 2 ^ (7 - (a - s.wr)) % 2) ∨
    (∃ rest, s.moves = .reset :: rest ∧ t.cell a = 0)

/-- Rule R27: in either mode no command but WR8 depends on the write cursor, and a write does not depend on the read
cursor; each carries the other cursor through unchanged. -/
def Obligations.CursorsAreIndependent : Prop :=
  (∀ (i : Instr) (s t : State) (x : Nat), (∀ v, i ≠ .wr8 v) → exec i s = .next t →
    exec i { s with wr := x } = .next { t with wr := x }) ∧
  (∀ (v : Byte) (s t : State) (x : Nat), exec (.wr8 v) s = .next t →
    exec (.wr8 v) { s with rd := x } = .next { t with rd := x })

/-- Rule R29, R30: in SILENT mode no command reads or writes `AVAIL` or `HIST`. -/
def Obligations.SilentModeIgnoresCounts : Prop :=
  ∀ (i : Instr) (s t : State) (a b : Nat), s.mode = .silent → exec i s = .next t →
    t.avail = s.avail ∧ t.hist = s.hist ∧
    exec i { s with avail := a, hist := b } = .next { t with avail := a, hist := b }

/-- Rule R81, R82: what every response carries. -/
def Obligations.ResponseData : Prop :=
  ∀ (s t : State) (w : Word), performWord w s = .next t →
    ∃ r, t.rsp = some r ∧ (r.status ≠ .ok → r.data = 0) ∧
      (r.status = .ok → ∃ i, decode w = .ok i ∧
        match i with
        | .pos => r.data = s.tot
        | .readn n => r.data = BitVec.ofNat 32 (cellSum s s.rd n.toNat)
        | .read1 => r.data = BitVec.ofNat 32 (s.cell s.rd).toNat
        | .wr8 _ => r.data = 0
        | .rewbits _ => r.data = 0
        | .rewbytes _ => r.data = 0)

/-! ### The step, the handshakes and runs -/

/-- Rule R71, R155: an offered word that spells a command is performed by the next step of a ready block that is not
halted: the step is `exec` of it, the host's later acts left. -/
def Obligations.ReadyStepRunsDecodedCommand : Prop :=
  ∀ (s : State) (w : Word) (i : Instr) (rest : List HostMove), s.cfg.legal = true → s.busy = false → s.rsp = none →
    s.flt = false → s.moves = .command w :: rest → decode w = .ok i → step s = exec i { s with moves := rest }

/-- Rule R71, R183: while the block is not ready an offered word is not accepted: it stays offered, the host takes the
response that waits, and no register changes. -/
def Obligations.UnreadyCommandStaysOffered : Prop :=
  ∀ (s : State) (w : Word) (rest : List HostMove) (r : Response), s.cfg.legal = true → s.busy = false →
    s.moves = .command w :: rest → s.rsp = some r →
    step s = .next { s with rsp := none, taken := s.taken ++ [r] }

/-- Rule R72: a response that waits is taken once, and with none waiting nothing is taken. -/
def Obligations.ResponseTakenOnce : Prop :=
  ∀ (s : State) (rest : List HostMove), s.cfg.legal = true → s.moves = .takeResponse :: rest →
    step s = .next { s with rsp := none, taken := s.taken ++ s.rsp.toList, moves := rest }

/-- Rule R9: an instance with `CAP_LOG2` outside 3 to 15 is refused. -/
def Obligations.IllegalInstanceRefused : Prop :=
  ∀ s : State, s.cfg.capLog2 < 3 ∨ 15 < s.cfg.capLog2 → step s = .refused .illegalInstance

/-- Rule R161: between commands the block holds its state. -/
def Obligations.IdleStepHoldsState : Prop :=
  ∀ s : State, s.cfg.legal = true → s.moves = [] → s.busy = false → step s = .next s

/-- Rule R32, R71, R173 (the step that ends a fill is the model's choice, log entry 5): while a fill is in progress an offered
word is not accepted; the step leaves every cell at 0 and `BUSY` at 0, and nothing else changed. -/
def Obligations.FillEndsBeforeCommand : Prop :=
  ∀ s : State, s.cfg.legal = true → s.busy = true → (s.moves = [] ∨ ∃ w rest, s.moves = .command w :: rest) →
    cmdReady s = false ∧ ∃ t, step s = .next t ∧ (∀ i, t.cell i = 0) ∧ t = { s with ring := t.ring, busy := false }

/-- Rule R31, R70, R71, R170: the output ports in every state. -/
def Obligations.OutputsFollowState : Prop :=
  ∀ s : State,
    ((outputs false s).cmdReady = true ↔ s.busy = false ∧ s.rsp = none) ∧ (outputs false s).rsp = s.rsp ∧
    (outputs false s).flt = s.flt ∧ (outputs false s).fltCause = s.cause ∧
    outputs true s = { cmdReady := false, rsp := none, flt := false, fltCause := 0 }

/-- Rule R13: a one-cell access outside the ring stops the model; no well-formed state has one. -/
def Obligations.CellBeyondCapacityStops : Prop :=
  (∀ s : State, s.mode = .silent ∨ 1 ≤ s.avail → s.cap ≤ s.rd → exec .read1 s = .fault .ringIndexOutOfRange) ∧
  (∀ (s : State) (v : Byte), Memory.wf s.ring = true → s.mode = .silent ∨ s.avail + 8 ≤ s.cap → s.cap < s.wr + 8 →
    exec (.wr8 v) s = .fault .ringIndexOutOfRange)

/-- Rule R40: the parameters and the command stream are arguments of the BRB's step, no state of it. A command word does to
a state what the BRB's own step does to its block on the configuration and the word, and carries everything else through
unread; the machine's step is the BRB's step on the configuration, the `check_mode` input and the next act of the stream
alone, and never changes the configuration. -/
def Obligations.ParametersAndCommandsAreArguments : Prop :=
  (∀ (s : State) (w : Word), performWord w s = onNext (fun b => withBlock b s) (s.toBlock.perform s.cfg w)) ∧
  (∀ s t : State, step s = .next t →
    s.toBlock.step s.cfg s.strap s.moves.head? = .next t.toBlock ∧ t.cfg = s.cfg)

/-- Rule R60: the steps of a host that hands over any sequence of words and takes the responses are the commands applied
one after the other, in order. The host's acts as a list of the state are the model's choice (log entry 3), and so is one
step for a word's acceptance and performance, one for the response (log entry 13). -/
def Obligations.RunIsSequenceOfCommands : Prop :=
  ∀ (s : State) (ws : List Word) (rest : List HostMove), s.WF → s.rsp = none →
    core.run (2 * ws.length) ({ s with moves := hostProgram ws ++ rest } : State) =
      performAll ws { s with moves := rest }

/-- Rule R72: every word of a sequence gets exactly one response, in order: the response to the first word, then one for
each later word. -/
def Obligations.OneResponsePerWord : Prop :=
  ∀ (s t : State) (w : Word) (ws : List Word), performAll (w :: ws) s = .next t →
    ∃ r u rs, performWord w s = .next u ∧ u.rsp = some r ∧ rs.length = ws.length ∧ t.taken = s.taken ++ r :: rs ∧
      t.rsp = none

/-- Rule R101, one word at a time: in every state a word adds its net bits to `TOT` mod 2^32 where its response is `OK`, and
leaves `TOT` alone where it is not. -/
def Obligations.TotalAfterWord : Prop :=
  ∀ (s t : State) (w : Word), performWord w s = .next t →
    ∃ r, t.rsp = some r ∧ t.tot = s.tot + BitVec.ofInt 32 (netBitsOf [(w, r)])

/-- Rule R101: after any sequence of words from reset `TOT` is the bits read minus the bits rewound by the successful ones,
mod 2^32. -/
def Obligations.PositionAccounting : Prop :=
  ∀ (c : Config) (m : CheckMode) (ws : List Word) (t : State), c.legal = true →
    performAll ws (State.resetTo c m) = .next t →
    t.tot = BitVec.ofInt 32 (netBitsOf (ws.zip (observe t).responses))
end

