-- ==== Sys2Proof/Laws/Decode.lean ====
section
/-! SUPPORT. The fields of a command word as arithmetic on its number, and the number of an encoded command. -/

namespace Sys2Proof

theorem opField_toNat (w : Word) : (opField w).toNat = w.toNat / 2 ^ 28 := by
  have := w.isLt
  simp [opField, BitVec.extractLsb'_toNat, Nat.shiftRight_eq_div_pow]
  omega

theorem rsvdField_toNat (w : Word) : (rsvdField w).toNat = w.toNat / 2 ^ 16 % 2 ^ 12 := by
  simp [rsvdField, BitVec.extractLsb'_toNat, Nat.shiftRight_eq_div_pow]

theorem argField_toNat (w : Word) : (argField w).toNat = w.toNat % 2 ^ 16 := by
  simp [argField, BitVec.extractLsb'_toNat]

theorem argHigh_toNat (a : Arg) : (argHigh a).toNat = a.toNat / 2 ^ 8 := by
  have := a.isLt
  simp [argHigh, BitVec.extractLsb'_toNat, Nat.shiftRight_eq_div_pow]
  omega

theorem argLow_toNat (a : Arg) : (argLow a).toNat = a.toNat % 2 ^ 8 := by
  simp [argLow, BitVec.extractLsb'_toNat]

theorem encode_toNat (i : Instr) : (encode i).toNat = i.opcode.toNat * 2 ^ 28 + i.arg.toNat := by
  have := i.arg.isLt
  simp only [encode, BitVec.toNat_append]
  rw [← Nat.shiftLeft_add_eq_or_of_lt (by omega), ← Nat.shiftLeft_add_eq_or_of_lt (by simp)]
  simp [Nat.shiftLeft_eq]
  omega

theorem opField_encode (i : Instr) : opField (encode i) = i.opcode := by
  apply BitVec.eq_of_toNat_eq
  have := i.arg.isLt
  rw [opField_toNat, encode_toNat]
  omega

theorem rsvdField_encode (i : Instr) : rsvdField (encode i) = 0 := by
  apply BitVec.eq_of_toNat_eq
  have := i.arg.isLt
  rw [rsvdField_toNat, encode_toNat]
  simp
  omega

theorem argField_encode (i : Instr) : argField (encode i) = i.arg := by
  apply BitVec.eq_of_toNat_eq
  have := i.arg.isLt
  rw [argField_toNat, encode_toNat]
  omega

end Sys2Proof
end

