-- ==== Sys2Proof/Laws/Memory.lean ====
section
/-! SUPPORT. The ring storage as a list: a read after a write, and the canonical form, which every operation keeps. -/

namespace Sys2Proof.Machine

@[simp] theorem Memory.read_nil (i : Nat) : Memory.read [] i = 0 := rfl

theorem Memory.wf_reset (c : Config) (m : CheckMode) : Memory.wf (State.resetTo c m).ring = true := rfl

theorem Memory.wfFrom_mono {lo lo' : Nat} (h : lo' ≤ lo) : ∀ {m : Memory}, Memory.wfFrom lo m = true →
    Memory.wfFrom lo' m = true
  | [], _ => rfl
  | (j, b) :: m, hm => by
    simp only [Memory.wfFrom, Bool.and_eq_true, decide_eq_true_eq] at hm ⊢
    exact ⟨⟨h.trans hm.1.1, hm.1.2⟩, hm.2⟩

/-- An index before the first listed one holds 0. -/
theorem Memory.read_of_lt_from {lo i : Nat} (hi : i < lo) : ∀ {m : Memory}, Memory.wfFrom lo m = true →
    Memory.read m i = 0
  | [], _ => rfl
  | (j, b) :: m, hm => by
    simp only [Memory.wfFrom, Bool.and_eq_true, decide_eq_true_eq] at hm
    have hij : i ≠ j := by omega
    simp only [Memory.read, hij, if_false]
    exact Memory.read_of_lt_from (by omega) hm.2

/-- A write keeps the canonical form. -/
theorem Memory.write_wfFrom {lo i : Nat} (b : Bit) (hi : lo ≤ i) : ∀ {m : Memory}, Memory.wfFrom lo m = true →
    Memory.wfFrom lo (Memory.write m i b) = true
  | [], _ => by
    simp only [Memory.write]
    split_ifs with hb
    · rfl
    · simp only [Memory.wfFrom, Bool.and_eq_true, decide_eq_true_eq]
      exact ⟨⟨hi, hb⟩, trivial⟩
  | (j, c) :: m, hm => by
    have h := hm
    simp only [Memory.wfFrom, Bool.and_eq_true, decide_eq_true_eq] at h
    obtain ⟨⟨hj, hc⟩, ht⟩ := h
    simp only [Memory.write]
    split_ifs with h1 hb h2 hb
    · exact hm
    · simp only [Memory.wfFrom, Bool.and_eq_true, decide_eq_true_eq]
      exact ⟨⟨hi, hb⟩, ⟨h1, hc⟩, ht⟩
    · exact Memory.wfFrom_mono (by omega) ht
    · subst h2
      simp only [Memory.wfFrom, Bool.and_eq_true, decide_eq_true_eq]
      exact ⟨⟨hi, hb⟩, ht⟩
    · simp only [Memory.wfFrom, Bool.and_eq_true, decide_eq_true_eq]
      exact ⟨⟨hj, hc⟩, Memory.write_wfFrom b (by omega) ht⟩

theorem Memory.write_wf {m : Memory} (h : Memory.wf m = true) (i : Nat) (b : Bit) :
    Memory.wf (Memory.write m i b) = true := Memory.write_wfFrom b (Nat.zero_le i) h

/-- A write below a bound keeps every listed index below it. -/
theorem Memory.write_below {cap i : Nat} (b : Bit) (hi : i < cap) : ∀ {m : Memory}, Memory.below cap m = true →
    Memory.below cap (Memory.write m i b) = true
  | [], _ => by
    simp only [Memory.write]
    split_ifs <;> simp [Memory.below, hi]
  | (j, c) :: m, hm => by
    have h := hm
    simp only [Memory.below, List.all_cons, Bool.and_eq_true, decide_eq_true_eq] at h
    have hm' : Memory.below cap m = true := h.2
    simp only [Memory.write]
    split_ifs
    · exact hm
    · simpa [Memory.below, hi] using hm
    · exact hm'
    · simpa [Memory.below, hi] using h.2
    · have := Memory.write_below b hi hm'
      simp only [Memory.below, List.all_cons, Bool.and_eq_true, decide_eq_true_eq] at this ⊢
      exact ⟨h.1, this⟩

theorem Memory.read_writeFrom {lo : Nat} (i j : Nat) (b : Bit) : ∀ {m : Memory}, Memory.wfFrom lo m = true →
    Memory.read (Memory.write m i b) j = if j = i then b else Memory.read m j
  | [], _ => by
    simp only [Memory.write]
    split_ifs with hb hji hji <;> simp_all [Memory.read]
  | (k, c) :: m, hm => by
    simp only [Memory.wfFrom, Bool.and_eq_true, decide_eq_true_eq] at hm
    obtain ⟨-, ht⟩ := hm
    have hk : ∀ x, x ≤ k → Memory.read m x = 0 := fun x hx => Memory.read_of_lt_from (by omega) ht
    have ih := Memory.read_writeFrom i j b ht
    simp only [Memory.write]
    by_cases hji : j = i
    · subst hji
      rw [if_pos rfl] at ih ⊢
      split_ifs with h1 hb h2 hb
      · rw [Memory.read, if_neg (by omega), hk j (by omega), hb]
      · rw [Memory.read, if_pos rfl]
      · rw [hk j (by omega), hb]
      · rw [Memory.read, if_pos rfl]
      · rw [Memory.read, if_neg h2, ih]
    · rw [if_neg hji] at ih ⊢
      split_ifs with h1 hb h2 hb
      · rfl
      · rw [Memory.read, if_neg hji]
      · rw [Memory.read, if_neg (by omega)]
      · rw [Memory.read, if_neg hji, Memory.read, if_neg (by omega)]
      · rw [Memory.read, Memory.read, ih]

/-- A read after a write: the value written there, the value held before everywhere else. -/
theorem Memory.read_write {m : Memory} (h : Memory.wf m = true) (i j : Nat) (b : Bit) :
    Memory.read (Memory.write m i b) j = if j = i then b else Memory.read m j := Memory.read_writeFrom i j b h

/-- Canonical storages that read alike are the same list. -/
theorem Memory.ext_from {lo : Nat} : ∀ {m m' : Memory}, Memory.wfFrom lo m = true → Memory.wfFrom lo m' = true →
    (∀ i, Memory.read m i = Memory.read m' i) → m = m'
  | [], [], _, _, _ => rfl
  | [], (j, b) :: m', _, h', he => by
    simp only [Memory.wfFrom, Bool.and_eq_true, decide_eq_true_eq] at h'
    have := he j
    simp [Memory.read] at this
    exact absurd this.symm h'.1.2
  | (j, b) :: m, [], h, _, he => by
    simp only [Memory.wfFrom, Bool.and_eq_true, decide_eq_true_eq] at h
    have := he j
    simp [Memory.read] at this
    exact absurd this h.1.2
  | (j, b) :: m, (k, c) :: m', h, h', he => by
    simp only [Memory.wfFrom, Bool.and_eq_true, decide_eq_true_eq] at h h'
    obtain ⟨⟨-, hb⟩, ht⟩ := h
    obtain ⟨⟨-, hc⟩, ht'⟩ := h'
    have hj := he j
    have hk := he k
    have hjk : j = k := by
      rcases Nat.lt_trichotomy j k with hlt | heq | hlt
      · rw [Memory.read, if_pos rfl, Memory.read, if_neg (by omega), Memory.read_of_lt_from (by omega) ht'] at hj
        exact absurd hj hb
      · exact heq
      · rw [Memory.read, if_neg (by omega), Memory.read, if_pos rfl, Memory.read_of_lt_from (by omega) ht] at hk
        exact absurd hk.symm hc
    subst hjk
    have hbc : b = c := by simpa [Memory.read] using hj
    subst hbc
    congr 1
    refine Memory.ext_from ht ht' fun i => ?_
    by_cases hi : i = j
    · subst hi
      rw [Memory.read_of_lt_from (by omega) ht, Memory.read_of_lt_from (by omega) ht']
    · simpa [Memory.read, hi] using he i

theorem Memory.ext_of_wf {m m' : Memory} (h : Memory.wf m = true) (h' : Memory.wf m' = true)
    (he : ∀ i, Memory.read m i = Memory.read m' i) : m = m' := Memory.ext_from h h' he

/-- An index outside the bound holds 0. -/
theorem Memory.read_of_below {cap i : Nat} (hi : cap ≤ i) : ∀ {m : Memory}, Memory.below cap m = true →
    Memory.read m i = 0
  | [], _ => rfl
  | (j, b) :: m, hm => by
    simp only [Memory.below, List.all_cons, Bool.and_eq_true, decide_eq_true_eq] at hm
    rw [Memory.read, if_neg (by omega)]
    exact Memory.read_of_below hi hm.2

end Sys2Proof.Machine
end

