-- ==== Sys2Proof/Laws/State.lean ====
section
/-! SUPPORT. What every update of the state does to every field, so that no later proof unfolds a record update. -/

namespace Sys2Proof.Machine

variable (s : State)

/-! ### setRing -/

@[simp] theorem setRing_ring (m : Memory) : (setRing m s).ring = m := rfl

@[simp] theorem setRing_rd (m : Memory) : (setRing m s).rd = s.rd := rfl

@[simp] theorem setRing_wr (m : Memory) : (setRing m s).wr = s.wr := rfl

@[simp] theorem setRing_tot (m : Memory) : (setRing m s).tot = s.tot := rfl

@[simp] theorem setRing_mode (m : Memory) : (setRing m s).mode = s.mode := rfl

@[simp] theorem setRing_avail (m : Memory) : (setRing m s).avail = s.avail := rfl

@[simp] theorem setRing_hist (m : Memory) : (setRing m s).hist = s.hist := rfl

@[simp] theorem setRing_flt (m : Memory) : (setRing m s).flt = s.flt := rfl

@[simp] theorem setRing_cause (m : Memory) : (setRing m s).cause = s.cause := rfl

@[simp] theorem setRing_busy (m : Memory) : (setRing m s).busy = s.busy := rfl

@[simp] theorem setRing_rsp (m : Memory) : (setRing m s).rsp = s.rsp := rfl

@[simp] theorem setRing_strap (m : Memory) : (setRing m s).strap = s.strap := rfl

@[simp] theorem setRing_cfg (m : Memory) : (setRing m s).cfg = s.cfg := rfl

@[simp] theorem setRing_moves (m : Memory) : (setRing m s).moves = s.moves := rfl

@[simp] theorem setRing_taken (m : Memory) : (setRing m s).taken = s.taken := rfl

@[simp] theorem setRing_cap (m : Memory) : (setRing m s).cap = s.cap := rfl

@[simp] theorem setRing_cell (m : Memory) (i : Nat) : (setRing m s).cell i = Memory.read m i := rfl

@[simp] theorem setRing_ringIdx (m : Memory) (b k : Nat) : ringIdx (setRing m s) b k = ringIdx s b k := by
  simp [ringIdx]

/-! ### setMoves -/

@[simp] theorem setMoves_ring (ms : List HostMove) : (setMoves ms s).ring = s.ring := rfl

@[simp] theorem setMoves_rd (ms : List HostMove) : (setMoves ms s).rd = s.rd := rfl

@[simp] theorem setMoves_wr (ms : List HostMove) : (setMoves ms s).wr = s.wr := rfl

@[simp] theorem setMoves_tot (ms : List HostMove) : (setMoves ms s).tot = s.tot := rfl

@[simp] theorem setMoves_mode (ms : List HostMove) : (setMoves ms s).mode = s.mode := rfl

@[simp] theorem setMoves_avail (ms : List HostMove) : (setMoves ms s).avail = s.avail := rfl

@[simp] theorem setMoves_hist (ms : List HostMove) : (setMoves ms s).hist = s.hist := rfl

@[simp] theorem setMoves_flt (ms : List HostMove) : (setMoves ms s).flt = s.flt := rfl

@[simp] theorem setMoves_cause (ms : List HostMove) : (setMoves ms s).cause = s.cause := rfl

@[simp] theorem setMoves_busy (ms : List HostMove) : (setMoves ms s).busy = s.busy := rfl

@[simp] theorem setMoves_rsp (ms : List HostMove) : (setMoves ms s).rsp = s.rsp := rfl

@[simp] theorem setMoves_strap (ms : List HostMove) : (setMoves ms s).strap = s.strap := rfl

@[simp] theorem setMoves_cfg (ms : List HostMove) : (setMoves ms s).cfg = s.cfg := rfl

@[simp] theorem setMoves_moves (ms : List HostMove) : (setMoves ms s).moves = ms := rfl

@[simp] theorem setMoves_taken (ms : List HostMove) : (setMoves ms s).taken = s.taken := rfl

@[simp] theorem setMoves_cap (ms : List HostMove) : (setMoves ms s).cap = s.cap := rfl

@[simp] theorem setMoves_cell (ms : List HostMove) (i : Nat) : (setMoves ms s).cell i = s.cell i := by
  simp [State.cell]

@[simp] theorem setMoves_ringIdx (ms : List HostMove) (b k : Nat) : ringIdx (setMoves ms s) b k = ringIdx s b k := by
  simp [ringIdx]

/-! ### respond -/

@[simp] theorem respond_ring (st : Status) (d : Word) : (respond st d s).ring = s.ring := rfl

@[simp] theorem respond_rd (st : Status) (d : Word) : (respond st d s).rd = s.rd := rfl

@[simp] theorem respond_wr (st : Status) (d : Word) : (respond st d s).wr = s.wr := rfl

@[simp] theorem respond_tot (st : Status) (d : Word) : (respond st d s).tot = s.tot := rfl

@[simp] theorem respond_mode (st : Status) (d : Word) : (respond st d s).mode = s.mode := rfl

@[simp] theorem respond_avail (st : Status) (d : Word) : (respond st d s).avail = s.avail := rfl

@[simp] theorem respond_hist (st : Status) (d : Word) : (respond st d s).hist = s.hist := rfl

@[simp] theorem respond_flt (st : Status) (d : Word) : (respond st d s).flt = s.flt := rfl

@[simp] theorem respond_cause (st : Status) (d : Word) : (respond st d s).cause = s.cause := rfl

@[simp] theorem respond_busy (st : Status) (d : Word) : (respond st d s).busy = s.busy := rfl

@[simp] theorem respond_rsp (st : Status) (d : Word) : (respond st d s).rsp = some { status := st, data := d } := rfl

@[simp] theorem respond_strap (st : Status) (d : Word) : (respond st d s).strap = s.strap := rfl

@[simp] theorem respond_cfg (st : Status) (d : Word) : (respond st d s).cfg = s.cfg := rfl

@[simp] theorem respond_moves (st : Status) (d : Word) : (respond st d s).moves = s.moves := rfl

@[simp] theorem respond_taken (st : Status) (d : Word) : (respond st d s).taken = s.taken := rfl

@[simp] theorem respond_cap (st : Status) (d : Word) : (respond st d s).cap = s.cap := rfl

@[simp] theorem respond_cell (st : Status) (d : Word) (i : Nat) : (respond st d s).cell i = s.cell i := by
  simp [State.cell]

@[simp] theorem respond_ringIdx (st : Status) (d : Word) (b k : Nat) : ringIdx (respond st d s) b k = ringIdx s b k := by
  simp [ringIdx]

/-! ### faultEntry -/

@[simp] theorem faultEntry_ring (c : Cause) : (faultEntry c s).ring = s.ring := rfl

@[simp] theorem faultEntry_rd (c : Cause) : (faultEntry c s).rd = s.rd := rfl

@[simp] theorem faultEntry_wr (c : Cause) : (faultEntry c s).wr = s.wr := rfl

@[simp] theorem faultEntry_tot (c : Cause) : (faultEntry c s).tot = s.tot := rfl

@[simp] theorem faultEntry_mode (c : Cause) : (faultEntry c s).mode = s.mode := rfl

@[simp] theorem faultEntry_avail (c : Cause) : (faultEntry c s).avail = s.avail := rfl

@[simp] theorem faultEntry_hist (c : Cause) : (faultEntry c s).hist = s.hist := rfl

@[simp] theorem faultEntry_flt (c : Cause) : (faultEntry c s).flt = true := rfl

@[simp] theorem faultEntry_cause (c : Cause) : (faultEntry c s).cause = c.status.code := rfl

@[simp] theorem faultEntry_busy (c : Cause) : (faultEntry c s).busy = s.busy := rfl

@[simp] theorem faultEntry_rsp (c : Cause) : (faultEntry c s).rsp = some { status := c.status, data := 0 } := rfl

@[simp] theorem faultEntry_strap (c : Cause) : (faultEntry c s).strap = s.strap := rfl

@[simp] theorem faultEntry_cfg (c : Cause) : (faultEntry c s).cfg = s.cfg := rfl

@[simp] theorem faultEntry_moves (c : Cause) : (faultEntry c s).moves = s.moves := rfl

@[simp] theorem faultEntry_taken (c : Cause) : (faultEntry c s).taken = s.taken := rfl

@[simp] theorem faultEntry_cap (c : Cause) : (faultEntry c s).cap = s.cap := rfl

@[simp] theorem faultEntry_cell (c : Cause) (i : Nat) : (faultEntry c s).cell i = s.cell i := by
  simp [State.cell]

@[simp] theorem faultEntry_ringIdx (c : Cause) (b k : Nat) : ringIdx (faultEntry c s) b k = ringIdx s b k := by
  simp [ringIdx]

/-! ### refuseHalted -/

@[simp] theorem refuseHalted_ring : (refuseHalted s).ring = s.ring := rfl

@[simp] theorem refuseHalted_rd : (refuseHalted s).rd = s.rd := rfl

@[simp] theorem refuseHalted_wr : (refuseHalted s).wr = s.wr := rfl

@[simp] theorem refuseHalted_tot : (refuseHalted s).tot = s.tot := rfl

@[simp] theorem refuseHalted_mode : (refuseHalted s).mode = s.mode := rfl

@[simp] theorem refuseHalted_avail : (refuseHalted s).avail = s.avail := rfl

@[simp] theorem refuseHalted_hist : (refuseHalted s).hist = s.hist := rfl

@[simp] theorem refuseHalted_flt : (refuseHalted s).flt = s.flt := rfl

@[simp] theorem refuseHalted_cause : (refuseHalted s).cause = s.cause := rfl

@[simp] theorem refuseHalted_busy : (refuseHalted s).busy = s.busy := rfl

@[simp] theorem refuseHalted_rsp : (refuseHalted s).rsp = some { status := .halted, data := 0 } := rfl

@[simp] theorem refuseHalted_strap : (refuseHalted s).strap = s.strap := rfl

@[simp] theorem refuseHalted_cfg : (refuseHalted s).cfg = s.cfg := rfl

@[simp] theorem refuseHalted_moves : (refuseHalted s).moves = s.moves := rfl

@[simp] theorem refuseHalted_taken : (refuseHalted s).taken = s.taken := rfl

@[simp] theorem refuseHalted_cap : (refuseHalted s).cap = s.cap := rfl

@[simp] theorem refuseHalted_cell (i : Nat) : (refuseHalted s).cell i = s.cell i := by
  simp [State.cell]

@[simp] theorem refuseHalted_ringIdx (b k : Nat) : ringIdx (refuseHalted s) b k = ringIdx s b k := by
  simp [ringIdx]

/-! ### advanceRead -/

@[simp] theorem advanceRead_ring (n : Nat) : (advanceRead n s).ring = s.ring := rfl

@[simp] theorem advanceRead_rd (n : Nat) : (advanceRead n s).rd = ringIdx s s.rd n := rfl

@[simp] theorem advanceRead_wr (n : Nat) : (advanceRead n s).wr = s.wr := rfl

@[simp] theorem advanceRead_tot (n : Nat) : (advanceRead n s).tot = s.tot + u32 n := rfl

@[simp] theorem advanceRead_mode (n : Nat) : (advanceRead n s).mode = s.mode := rfl

@[simp] theorem advanceRead_avail (n : Nat) : (advanceRead n s).avail = s.avail := rfl

@[simp] theorem advanceRead_hist (n : Nat) : (advanceRead n s).hist = s.hist := rfl

@[simp] theorem advanceRead_flt (n : Nat) : (advanceRead n s).flt = s.flt := rfl

@[simp] theorem advanceRead_cause (n : Nat) : (advanceRead n s).cause = s.cause := rfl

@[simp] theorem advanceRead_busy (n : Nat) : (advanceRead n s).busy = s.busy := rfl

@[simp] theorem advanceRead_rsp (n : Nat) : (advanceRead n s).rsp = s.rsp := rfl

@[simp] theorem advanceRead_strap (n : Nat) : (advanceRead n s).strap = s.strap := rfl

@[simp] theorem advanceRead_cfg (n : Nat) : (advanceRead n s).cfg = s.cfg := rfl

@[simp] theorem advanceRead_moves (n : Nat) : (advanceRead n s).moves = s.moves := rfl

@[simp] theorem advanceRead_taken (n : Nat) : (advanceRead n s).taken = s.taken := rfl

@[simp] theorem advanceRead_cap (n : Nat) : (advanceRead n s).cap = s.cap := rfl

@[simp] theorem advanceRead_cell (n : Nat) (i : Nat) : (advanceRead n s).cell i = s.cell i := by
  simp [State.cell]

@[simp] theorem advanceRead_ringIdx (n : Nat) (b k : Nat) : ringIdx (advanceRead n s) b k = ringIdx s b k := by
  simp [ringIdx]

/-! ### advanceWrite -/

@[simp] theorem advanceWrite_ring : (advanceWrite s).ring = s.ring := rfl

@[simp] theorem advanceWrite_rd : (advanceWrite s).rd = s.rd := rfl

@[simp] theorem advanceWrite_wr : (advanceWrite s).wr = nextWriteCursor s.cap s.wr := rfl

@[simp] theorem advanceWrite_tot : (advanceWrite s).tot = s.tot := rfl

@[simp] theorem advanceWrite_mode : (advanceWrite s).mode = s.mode := rfl

@[simp] theorem advanceWrite_avail : (advanceWrite s).avail = s.avail := rfl

@[simp] theorem advanceWrite_hist : (advanceWrite s).hist = s.hist := rfl

@[simp] theorem advanceWrite_flt : (advanceWrite s).flt = s.flt := rfl

@[simp] theorem advanceWrite_cause : (advanceWrite s).cause = s.cause := rfl

@[simp] theorem advanceWrite_busy : (advanceWrite s).busy = s.busy := rfl

@[simp] theorem advanceWrite_rsp : (advanceWrite s).rsp = s.rsp := rfl

@[simp] theorem advanceWrite_strap : (advanceWrite s).strap = s.strap := rfl

@[simp] theorem advanceWrite_cfg : (advanceWrite s).cfg = s.cfg := rfl

@[simp] theorem advanceWrite_moves : (advanceWrite s).moves = s.moves := rfl

@[simp] theorem advanceWrite_taken : (advanceWrite s).taken = s.taken := rfl

@[simp] theorem advanceWrite_cap : (advanceWrite s).cap = s.cap := rfl

@[simp] theorem advanceWrite_cell (i : Nat) : (advanceWrite s).cell i = s.cell i := by
  simp [State.cell]

@[simp] theorem advanceWrite_ringIdx (b k : Nat) : ringIdx (advanceWrite s) b k = ringIdx s b k := by
  simp [ringIdx]

/-! ### moveBack -/

@[simp] theorem moveBack_ring (nb : Nat) : (moveBack nb s).ring = s.ring := rfl

@[simp] theorem moveBack_rd (nb : Nat) : (moveBack nb s).rd = rewoundCursor s nb := rfl

@[simp] theorem moveBack_wr (nb : Nat) : (moveBack nb s).wr = s.wr := rfl

@[simp] theorem moveBack_tot (nb : Nat) : (moveBack nb s).tot = s.tot - u32 nb := rfl

@[simp] theorem moveBack_mode (nb : Nat) : (moveBack nb s).mode = s.mode := rfl

@[simp] theorem moveBack_avail (nb : Nat) : (moveBack nb s).avail = s.avail := rfl

@[simp] theorem moveBack_hist (nb : Nat) : (moveBack nb s).hist = s.hist := rfl

@[simp] theorem moveBack_flt (nb : Nat) : (moveBack nb s).flt = s.flt := rfl

@[simp] theorem moveBack_cause (nb : Nat) : (moveBack nb s).cause = s.cause := rfl

@[simp] theorem moveBack_busy (nb : Nat) : (moveBack nb s).busy = s.busy := rfl

@[simp] theorem moveBack_rsp (nb : Nat) : (moveBack nb s).rsp = s.rsp := rfl

@[simp] theorem moveBack_strap (nb : Nat) : (moveBack nb s).strap = s.strap := rfl

@[simp] theorem moveBack_cfg (nb : Nat) : (moveBack nb s).cfg = s.cfg := rfl

@[simp] theorem moveBack_moves (nb : Nat) : (moveBack nb s).moves = s.moves := rfl

@[simp] theorem moveBack_taken (nb : Nat) : (moveBack nb s).taken = s.taken := rfl

@[simp] theorem moveBack_cap (nb : Nat) : (moveBack nb s).cap = s.cap := rfl

@[simp] theorem moveBack_cell (nb : Nat) (i : Nat) : (moveBack nb s).cell i = s.cell i := by
  simp [State.cell]

@[simp] theorem moveBack_ringIdx (nb : Nat) (b k : Nat) : ringIdx (moveBack nb s) b k = ringIdx s b k := by
  simp [ringIdx]

/-! ### countRead -/

theorem countRead_silent (n : Nat) (h : s.mode = .silent) : countRead n s = s := by simp [countRead, h]

theorem countRead_checked (n : Nat) (h : s.mode = .checked) :
    countRead n s = { s with avail := s.avail - n, hist := s.hist + n } := by
  simp [countRead, h]

@[simp] theorem countRead_ring (n : Nat) : (countRead n s).ring = s.ring := by
  cases h : s.mode <;> simp [countRead, h]

@[simp] theorem countRead_rd (n : Nat) : (countRead n s).rd = s.rd := by
  cases h : s.mode <;> simp [countRead, h]

@[simp] theorem countRead_wr (n : Nat) : (countRead n s).wr = s.wr := by
  cases h : s.mode <;> simp [countRead, h]

@[simp] theorem countRead_tot (n : Nat) : (countRead n s).tot = s.tot := by
  cases h : s.mode <;> simp [countRead, h]

@[simp] theorem countRead_mode (n : Nat) : (countRead n s).mode = s.mode := by
  cases h : s.mode <;> simp [countRead, h]

@[simp] theorem countRead_avail_silent (n : Nat) (h : s.mode = .silent) : (countRead n s).avail = s.avail := by simp [countRead, h]

@[simp] theorem countRead_avail_checked (n : Nat) (h : s.mode = .checked) :
    (countRead n s).avail = s.avail - n := by simp [countRead, h]

@[simp] theorem countRead_hist_silent (n : Nat) (h : s.mode = .silent) : (countRead n s).hist = s.hist := by simp [countRead, h]

@[simp] theorem countRead_hist_checked (n : Nat) (h : s.mode = .checked) :
    (countRead n s).hist = s.hist + n := by simp [countRead, h]

@[simp] theorem countRead_flt (n : Nat) : (countRead n s).flt = s.flt := by
  cases h : s.mode <;> simp [countRead, h]

@[simp] theorem countRead_cause (n : Nat) : (countRead n s).cause = s.cause := by
  cases h : s.mode <;> simp [countRead, h]

@[simp] theorem countRead_busy (n : Nat) : (countRead n s).busy = s.busy := by
  cases h : s.mode <;> simp [countRead, h]

@[simp] theorem countRead_rsp (n : Nat) : (countRead n s).rsp = s.rsp := by
  cases h : s.mode <;> simp [countRead, h]

@[simp] theorem countRead_strap (n : Nat) : (countRead n s).strap = s.strap := by
  cases h : s.mode <;> simp [countRead, h]

@[simp] theorem countRead_cfg (n : Nat) : (countRead n s).cfg = s.cfg := by
  cases h : s.mode <;> simp [countRead, h]

@[simp] theorem countRead_moves (n : Nat) : (countRead n s).moves = s.moves := by
  cases h : s.mode <;> simp [countRead, h]

@[simp] theorem countRead_taken (n : Nat) : (countRead n s).taken = s.taken := by
  cases h : s.mode <;> simp [countRead, h]

@[simp] theorem countRead_cap (n : Nat) : (countRead n s).cap = s.cap := by
  simp [State.cap]

@[simp] theorem countRead_cell (n : Nat) (i : Nat) : (countRead n s).cell i = s.cell i := by
  simp [State.cell]

@[simp] theorem countRead_ringIdx (n : Nat) (b k : Nat) : ringIdx (countRead n s) b k = ringIdx s b k := by
  simp [ringIdx]

/-! ### countWrite -/

theorem countWrite_silent (h : s.mode = .silent) : countWrite s = s := by simp [countWrite, h]

theorem countWrite_checked (h : s.mode = .checked) :
    countWrite s = { s with avail := s.avail + 8, hist := min s.hist (s.cap - (s.avail + 8)) } := by
  simp [countWrite, h]

@[simp] theorem countWrite_ring : (countWrite s).ring = s.ring := by
  cases h : s.mode <;> simp [countWrite, h]

@[simp] theorem countWrite_rd : (countWrite s).rd = s.rd := by
  cases h : s.mode <;> simp [countWrite, h]

@[simp] theorem countWrite_wr : (countWrite s).wr = s.wr := by
  cases h : s.mode <;> simp [countWrite, h]

@[simp] theorem countWrite_tot : (countWrite s).tot = s.tot := by
  cases h : s.mode <;> simp [countWrite, h]

@[simp] theorem countWrite_mode : (countWrite s).mode = s.mode := by
  cases h : s.mode <;> simp [countWrite, h]

@[simp] theorem countWrite_avail_silent (h : s.mode = .silent) : (countWrite s).avail = s.avail := by simp [countWrite, h]

@[simp] theorem countWrite_avail_checked (h : s.mode = .checked) :
    (countWrite s).avail = s.avail + 8 := by simp [countWrite, h]

@[simp] theorem countWrite_hist_silent (h : s.mode = .silent) : (countWrite s).hist = s.hist := by simp [countWrite, h]

@[simp] theorem countWrite_hist_checked (h : s.mode = .checked) :
    (countWrite s).hist = min s.hist (s.cap - (s.avail + 8)) := by simp [countWrite, h]

@[simp] theorem countWrite_flt : (countWrite s).flt = s.flt := by
  cases h : s.mode <;> simp [countWrite, h]

@[simp] theorem countWrite_cause : (countWrite s).cause = s.cause := by
  cases h : s.mode <;> simp [countWrite, h]

@[simp] theorem countWrite_busy : (countWrite s).busy = s.busy := by
  cases h : s.mode <;> simp [countWrite, h]

@[simp] theorem countWrite_rsp : (countWrite s).rsp = s.rsp := by
  cases h : s.mode <;> simp [countWrite, h]

@[simp] theorem countWrite_strap : (countWrite s).strap = s.strap := by
  cases h : s.mode <;> simp [countWrite, h]

@[simp] theorem countWrite_cfg : (countWrite s).cfg = s.cfg := by
  cases h : s.mode <;> simp [countWrite, h]

@[simp] theorem countWrite_moves : (countWrite s).moves = s.moves := by
  cases h : s.mode <;> simp [countWrite, h]

@[simp] theorem countWrite_taken : (countWrite s).taken = s.taken := by
  cases h : s.mode <;> simp [countWrite, h]

@[simp] theorem countWrite_cap : (countWrite s).cap = s.cap := by
  simp [State.cap]

@[simp] theorem countWrite_cell (i : Nat) : (countWrite s).cell i = s.cell i := by
  simp [State.cell]

@[simp] theorem countWrite_ringIdx (b k : Nat) : ringIdx (countWrite s) b k = ringIdx s b k := by
  simp [ringIdx]

/-! ### countRewind -/

theorem countRewind_silent (nb : Nat) (h : s.mode = .silent) : countRewind nb s = s := by simp [countRewind, h]

theorem countRewind_checked (nb : Nat) (h : s.mode = .checked) :
    countRewind nb s = { s with avail := s.avail + nb, hist := s.hist - nb } := by
  simp [countRewind, h]

@[simp] theorem countRewind_ring (nb : Nat) : (countRewind nb s).ring = s.ring := by
  cases h : s.mode <;> simp [countRewind, h]

@[simp] theorem countRewind_rd (nb : Nat) : (countRewind nb s).rd = s.rd := by
  cases h : s.mode <;> simp [countRewind, h]

@[simp] theorem countRewind_wr (nb : Nat) : (countRewind nb s).wr = s.wr := by
  cases h : s.mode <;> simp [countRewind, h]

@[simp] theorem countRewind_tot (nb : Nat) : (countRewind nb s).tot = s.tot := by
  cases h : s.mode <;> simp [countRewind, h]

@[simp] theorem countRewind_mode (nb : Nat) : (countRewind nb s).mode = s.mode := by
  cases h : s.mode <;> simp [countRewind, h]

@[simp] theorem countRewind_avail_silent (nb : Nat) (h : s.mode = .silent) : (countRewind nb s).avail = s.avail := by simp [countRewind, h]

@[simp] theorem countRewind_avail_checked (nb : Nat) (h : s.mode = .checked) :
    (countRewind nb s).avail = s.avail + nb := by simp [countRewind, h]

@[simp] theorem countRewind_hist_silent (nb : Nat) (h : s.mode = .silent) : (countRewind nb s).hist = s.hist := by simp [countRewind, h]

@[simp] theorem countRewind_hist_checked (nb : Nat) (h : s.mode = .checked) :
    (countRewind nb s).hist = s.hist - nb := by simp [countRewind, h]

@[simp] theorem countRewind_flt (nb : Nat) : (countRewind nb s).flt = s.flt := by
  cases h : s.mode <;> simp [countRewind, h]

@[simp] theorem countRewind_cause (nb : Nat) : (countRewind nb s).cause = s.cause := by
  cases h : s.mode <;> simp [countRewind, h]

@[simp] theorem countRewind_busy (nb : Nat) : (countRewind nb s).busy = s.busy := by
  cases h : s.mode <;> simp [countRewind, h]

@[simp] theorem countRewind_rsp (nb : Nat) : (countRewind nb s).rsp = s.rsp := by
  cases h : s.mode <;> simp [countRewind, h]

@[simp] theorem countRewind_strap (nb : Nat) : (countRewind nb s).strap = s.strap := by
  cases h : s.mode <;> simp [countRewind, h]

@[simp] theorem countRewind_cfg (nb : Nat) : (countRewind nb s).cfg = s.cfg := by
  cases h : s.mode <;> simp [countRewind, h]

@[simp] theorem countRewind_moves (nb : Nat) : (countRewind nb s).moves = s.moves := by
  cases h : s.mode <;> simp [countRewind, h]

@[simp] theorem countRewind_taken (nb : Nat) : (countRewind nb s).taken = s.taken := by
  cases h : s.mode <;> simp [countRewind, h]

@[simp] theorem countRewind_cap (nb : Nat) : (countRewind nb s).cap = s.cap := by
  simp [State.cap]

@[simp] theorem countRewind_cell (nb : Nat) (i : Nat) : (countRewind nb s).cell i = s.cell i := by
  simp [State.cell]

@[simp] theorem countRewind_ringIdx (nb : Nat) (b k : Nat) : ringIdx (countRewind nb s) b k = ringIdx s b k := by
  simp [ringIdx]

/-! ### takeResponse -/

@[simp] theorem takeResponse_ring : (takeResponse s).ring = s.ring := rfl

@[simp] theorem takeResponse_rd : (takeResponse s).rd = s.rd := rfl

@[simp] theorem takeResponse_wr : (takeResponse s).wr = s.wr := rfl

@[simp] theorem takeResponse_tot : (takeResponse s).tot = s.tot := rfl

@[simp] theorem takeResponse_mode : (takeResponse s).mode = s.mode := rfl

@[simp] theorem takeResponse_avail : (takeResponse s).avail = s.avail := rfl

@[simp] theorem takeResponse_hist : (takeResponse s).hist = s.hist := rfl

@[simp] theorem takeResponse_flt : (takeResponse s).flt = s.flt := rfl

@[simp] theorem takeResponse_cause : (takeResponse s).cause = s.cause := rfl

@[simp] theorem takeResponse_busy : (takeResponse s).busy = s.busy := rfl

@[simp] theorem takeResponse_rsp : (takeResponse s).rsp = none := rfl

@[simp] theorem takeResponse_strap : (takeResponse s).strap = s.strap := rfl

@[simp] theorem takeResponse_cfg : (takeResponse s).cfg = s.cfg := rfl

@[simp] theorem takeResponse_moves : (takeResponse s).moves = s.moves := rfl

@[simp] theorem takeResponse_taken : (takeResponse s).taken = s.taken ++ s.rsp.toList := rfl

@[simp] theorem takeResponse_cap : (takeResponse s).cap = s.cap := rfl

@[simp] theorem takeResponse_cell (i : Nat) : (takeResponse s).cell i = s.cell i := by
  simp [State.cell]

@[simp] theorem takeResponse_ringIdx (b k : Nat) : ringIdx (takeResponse s) b k = ringIdx s b k := by
  simp [ringIdx]

/-! ### withBlock: another BRB beside the same host -/

variable (c : Block)

@[simp] theorem withBlock_ring : (withBlock c s).ring = c.ring := rfl

@[simp] theorem withBlock_rd : (withBlock c s).rd = c.rd := rfl

@[simp] theorem withBlock_wr : (withBlock c s).wr = c.wr := rfl

@[simp] theorem withBlock_tot : (withBlock c s).tot = c.tot := rfl

@[simp] theorem withBlock_mode : (withBlock c s).mode = c.mode := rfl

@[simp] theorem withBlock_avail : (withBlock c s).avail = c.avail := rfl

@[simp] theorem withBlock_hist : (withBlock c s).hist = c.hist := rfl

@[simp] theorem withBlock_flt : (withBlock c s).flt = c.flt := rfl

@[simp] theorem withBlock_cause : (withBlock c s).cause = c.cause := rfl

@[simp] theorem withBlock_busy : (withBlock c s).busy = c.busy := rfl

@[simp] theorem withBlock_rsp : (withBlock c s).rsp = c.rsp := rfl

@[simp] theorem withBlock_strap : (withBlock c s).strap = s.strap := rfl

@[simp] theorem withBlock_cfg : (withBlock c s).cfg = s.cfg := rfl

@[simp] theorem withBlock_moves : (withBlock c s).moves = s.moves := rfl

@[simp] theorem withBlock_taken : (withBlock c s).taken = s.taken := rfl

@[simp] theorem withBlock_cap : (withBlock c s).cap = s.cap := rfl

@[simp] theorem withBlock_cell (i : Nat) : (withBlock c s).cell i = Memory.read c.ring i := rfl

@[simp] theorem withBlock_toBlock : (withBlock c s).toBlock = c := rfl

@[simp] theorem withBlock_self : withBlock s.toBlock s = s := rfl

@[simp] theorem withBlock_withBlock (b : Block) : withBlock b (withBlock c s) = withBlock b s := rfl

/-! ### the BRB's own updates -/

variable (b : Block)

@[simp] theorem Block.applyReset_ring (m : CheckMode) : (b.applyReset m).ring = [] := rfl

@[simp] theorem Block.applyReset_rd (m : CheckMode) : (b.applyReset m).rd = 0 := rfl

@[simp] theorem Block.applyReset_wr (m : CheckMode) : (b.applyReset m).wr = 0 := rfl

@[simp] theorem Block.applyReset_tot (m : CheckMode) : (b.applyReset m).tot = 0 := rfl

@[simp] theorem Block.applyReset_mode (m : CheckMode) : (b.applyReset m).mode = m := rfl

@[simp] theorem Block.applyReset_avail (m : CheckMode) : (b.applyReset m).avail = 0 := rfl

@[simp] theorem Block.applyReset_hist (m : CheckMode) : (b.applyReset m).hist = 0 := rfl

@[simp] theorem Block.applyReset_flt (m : CheckMode) : (b.applyReset m).flt = false := rfl

@[simp] theorem Block.applyReset_cause (m : CheckMode) : (b.applyReset m).cause = 0 := rfl

@[simp] theorem Block.applyReset_busy (m : CheckMode) : (b.applyReset m).busy = false := rfl

@[simp] theorem Block.applyReset_rsp (m : CheckMode) : (b.applyReset m).rsp = none := rfl

@[simp] theorem Block.finishFill_ring : b.finishFill.ring = [] := rfl

@[simp] theorem Block.finishFill_rd : b.finishFill.rd = b.rd := rfl

@[simp] theorem Block.finishFill_wr : b.finishFill.wr = b.wr := rfl

@[simp] theorem Block.finishFill_tot : b.finishFill.tot = b.tot := rfl

@[simp] theorem Block.finishFill_mode : b.finishFill.mode = b.mode := rfl

@[simp] theorem Block.finishFill_avail : b.finishFill.avail = b.avail := rfl

@[simp] theorem Block.finishFill_hist : b.finishFill.hist = b.hist := rfl

@[simp] theorem Block.finishFill_flt : b.finishFill.flt = b.flt := rfl

@[simp] theorem Block.finishFill_cause : b.finishFill.cause = b.cause := rfl

@[simp] theorem Block.finishFill_busy : b.finishFill.busy = false := rfl

@[simp] theorem Block.finishFill_rsp : b.finishFill.rsp = b.rsp := rfl

@[simp] theorem Block.freePort_ring : b.freePort.ring = b.ring := rfl

@[simp] theorem Block.freePort_rd : b.freePort.rd = b.rd := rfl

@[simp] theorem Block.freePort_wr : b.freePort.wr = b.wr := rfl

@[simp] theorem Block.freePort_tot : b.freePort.tot = b.tot := rfl

@[simp] theorem Block.freePort_mode : b.freePort.mode = b.mode := rfl

@[simp] theorem Block.freePort_avail : b.freePort.avail = b.avail := rfl

@[simp] theorem Block.freePort_hist : b.freePort.hist = b.hist := rfl

@[simp] theorem Block.freePort_flt : b.freePort.flt = b.flt := rfl

@[simp] theorem Block.freePort_cause : b.freePort.cause = b.cause := rfl

@[simp] theorem Block.freePort_busy : b.freePort.busy = b.busy := rfl

@[simp] theorem Block.freePort_rsp : b.freePort.rsp = none := rfl

theorem Block.idle_of_not_busy (h : b.busy = false) : b.idle = b := by simp [Block.idle, h]

theorem Block.idle_of_busy (h : b.busy = true) : b.idle = b.finishFill := by simp [Block.idle, h]

/-! ### outcomes -/

@[simp] theorem onNext_next {α β : Type} (f : α → β) (a : α) : onNext f (.next a) = .next (f a) := rfl

@[simp] theorem onNext_fault {α β : Type} (f : α → β) (r : Fault) : onNext f (.fault r) = .fault r := rfl

@[simp] theorem onNext_refused {α β : Type} (f : α → β) (r : Refusal) : onNext f (.refused r) = .refused r := rfl

theorem onNext_onNext {α β γ : Type} (f : α → β) (g : β → γ) (o : Host.Outcome α Fault Refusal) :
    onNext g (onNext f o) = onNext (fun a => g (f a)) o := by cases o <;> rfl

theorem onNext_id {α : Type} (o : Host.Outcome α Fault Refusal) : onNext (fun a => a) o = o := by cases o <;> rfl

/-! ### reset -/

theorem resetTo_cell (c : Config) (m : CheckMode) (i : Nat) : (State.resetTo c m).cell i = 0 := rfl

/-! ### the response handshake -/

theorem takeResponse_none (h : s.rsp = none) : takeResponse s = s := by
  obtain ⟨⟨⟩⟩ := s
  simp_all [takeResponse, withBlock, Block.freePort]

theorem takeResponse_some {r : Response} (h : s.rsp = some r) :
    takeResponse s = { s with rsp := none, taken := s.taken ++ [r] } := by
  simp [takeResponse, withBlock, Block.freePort, h]

end Sys2Proof.Machine
end

