-- ==== Sys2Proof/Laws/Ops.lean ====
section
/-! SUPPORT. One lemma per shared operation, saying once what it can do: the index generator, the one-cell accesses, the
packer, the byte unpacker, the cursor moves, and a command with its fault condition. -/

namespace Sys2Proof.Machine

theorem cap_pos (s : State) : 0 < s.cap := Nat.two_pow_pos _

/-- The mask of a power of two is a remainder. -/
theorem and_mask (s : State) (x : Nat) : x &&& s.cfg.mask = x % s.cap := by
  simp only [Config.mask, State.cap, Config.cap]
  exact Nat.and_two_pow_sub_one_eq_mod x s.cfg.capLog2

theorem ringIdx_eq (s : State) (base k : Nat) : ringIdx s base k = (base + k) % s.cap := and_mask s _

theorem ringIdx_lt (s : State) (base k : Nat) : ringIdx s base k < s.cap := by
  rw [ringIdx_eq]
  exact Nat.mod_lt _ (cap_pos s)

/-- A generated index is always an index that exists. -/
theorem memRead_ringIdx (s : State) (base k : Nat) :
    memRead s (ringIdx s base k) = some (s.cell (ringIdx s base k)) := if_pos (ringIdx_lt s base k)

theorem memRead_of_lt {s : State} {i : Nat} (h : i < s.cap) : memRead s i = some (s.cell i) := if_pos h

theorem memRead_of_ge {s : State} {i : Nat} (h : s.cap ≤ i) : memRead s i = none := if_neg (by omega)

theorem memWrite_of_lt {s : State} {i : Nat} (h : i < s.cap) (b : Bit) :
    memWrite s i b = some (setRing (Memory.write s.ring i b) s) := if_pos h

theorem memWrite_of_ge {s : State} {i : Nat} (h : s.cap ≤ i) (b : Bit) : memWrite s i b = none := if_neg (by omega)

/-- A legal capacity is a multiple of 8, at least 8 and at most 32768. -/
theorem cap_of_legal {s : State} (h : s.cfg.legal = true) : 8 ≤ s.cap ∧ s.cap % 8 = 0 ∧ s.cap ≤ 32768 := by
  simp only [Config.legal, Bool.and_eq_true, decide_eq_true_eq] at h
  obtain ⟨h1, h2⟩ := h
  have hd : s.cap = 2 ^ (s.cfg.capLog2 - 3) * 8 := by
    simp only [State.cap, Config.cap]
    rw [show (8 : Nat) = 2 ^ 3 from rfl, ← Nat.pow_add]
    congr 1
    omega
  have hp : 0 < 2 ^ (s.cfg.capLog2 - 3) := Nat.two_pow_pos _
  have hu : s.cap ≤ 2 ^ 15 := Nat.pow_le_pow_right (by decide) h2
  omega

/-! ### the packer -/

@[simp] theorem pack_zero (s : State) (base : Nat) : pack s base 0 = 0 := rfl

/-- One turn of the packing loop as arithmetic. -/
theorem pack_succ (s : State) (base k : Nat) :
    pack s base (k + 1) = 2 * pack s base k + (s.cell (ringIdx s base k)).toNat := by
  have hb : (s.cell (ringIdx s base k)).toNat < 2 ^ 1 := BitVec.isLt _
  rw [pack, ← Nat.shiftLeft_add_eq_or_of_lt hb, Nat.shiftLeft_eq]
  omega

/-- A packed value depends only on the cells read. -/
theorem pack_congr {s t : State} {a b : Nat} : ∀ {n : Nat},
    (∀ k, k < n → s.cell (ringIdx s a k) = t.cell (ringIdx t b k)) → pack s a n = pack t b n
  | 0, _ => rfl
  | n + 1, h => by
    rw [pack_succ, pack_succ, pack_congr fun k hk => h k (by omega), h n (by omega)]

/-- N packed bits make a number below 2^N. -/
theorem pack_lt (s : State) (base : Nat) : ∀ n, pack s base n < 2 ^ n
  | 0 => by simp
  | n + 1 => by
    have hb : (s.cell (ringIdx s base n)).toNat < 2 ^ 1 := BitVec.isLt _
    have := pack_lt s base n
    rw [pack_succ]
    omega

/-! ### the byte unpacker -/

/-- The one-cell writes of WR8: where the cells exist, only the ring changes; it keeps its canonical form, the cells
written hold the byte's bits, and every other cell what it held. -/
theorem writeBits_spec {s : State} (hw : Memory.wf s.ring = true) (v : Byte) : ∀ n, s.wr + n ≤ s.cap →
    ∃ m, writeBits s v n = some (setRing m s) ∧ Memory.wf m = true ∧
      (Memory.below s.cap s.ring = true → Memory.below s.cap m = true) ∧
      ∀ i, Memory.read m i = if s.wr ≤ i ∧ i < s.wr + n then byteBit v (i - s.wr) else Memory.read s.ring i
  | 0, _ => ⟨s.ring, rfl, hw, id, fun i => by rw [if_neg (by omega)]⟩
  | n + 1, h => by
    obtain ⟨m, he, hm, hb, hr⟩ := writeBits_spec hw v n (by omega)
    refine ⟨Memory.write m (s.wr + n) (byteBit v n), ?_, Memory.write_wf hm _ _, fun hs => ?_, fun i => ?_⟩
    · simp only [writeBits, he, Option.bind_some]
      exact memWrite_of_lt (s := setRing m s) (show s.wr + n < s.cap by omega) _
    · exact Memory.write_below _ (by omega) (hb hs)
    · rw [Memory.read_write hm, hr]
      by_cases hi : i = s.wr + n
      · subst hi
        rw [if_pos rfl, if_pos (by omega)]
        congr 1
        omega
      · rw [if_neg hi]
        by_cases h1 : s.wr ≤ i ∧ i < s.wr + n
        · rw [if_pos h1, if_pos (by omega)]
        · rw [if_neg h1, if_neg (by omega)]

/-- A byte write stops where one of its cells does not exist. -/
theorem writeBits_none {s : State} (hw : Memory.wf s.ring = true) (v : Byte) : ∀ n, s.cap < s.wr + (n + 1) →
    writeBits s v (n + 1) = none
  | 0, h => memWrite_of_ge (s := s) (i := s.wr + 0) (by omega) _
  | n + 1, h => by
    by_cases hs : s.wr + (n + 1) ≤ s.cap
    · obtain ⟨m, he, -⟩ := writeBits_spec hw v (n + 1) hs
      rw [writeBits, he, Option.bind_some]
      exact memWrite_of_ge (s := setRing m s) (show s.cap ≤ s.wr + (n + 1) by omega) _
    · rw [writeBits, writeBits_none hw v n (by omega), Option.bind_none]

/-! ### the cursor moves -/

/-- The compare-and-wrap of the write cursor keeps it a multiple of 8 with a whole byte of room. -/
theorem nextWriteCursor_room {cap wr : Nat} (hc : cap % 8 = 0) (hw : wr % 8 = 0) (h : wr + 8 ≤ cap) :
    nextWriteCursor cap wr % 8 = 0 ∧ nextWriteCursor cap wr + 8 ≤ cap := by
  simp only [nextWriteCursor]
  split_ifs <;> omega

/-- It is the remainder by the capacity. -/
theorem nextWriteCursor_eq_mod {cap wr : Nat} (h : wr + 8 ≤ cap) : nextWriteCursor cap wr = (wr + 8) % cap := by
  simp only [nextWriteCursor]
  split_ifs with he
  · rw [he, Nat.mod_self]
  · rw [Nat.mod_eq_of_lt (by omega)]

/-- The single wrap of a rewind is the remainder wherever the rewind is allowed. -/
theorem rewoundCursor_eq {s : State} {nb : Nat} (hr : s.rd < s.cap) (h : nb ≤ s.rd + s.cap) :
    rewoundCursor s nb = (s.rd + 2 * s.cap - nb) % s.cap := by
  simp only [rewoundCursor]
  split_ifs with h0
  · rw [show s.rd + 2 * s.cap - nb = (s.rd + s.cap - nb) + s.cap by omega, Nat.add_mod_right,
      Nat.mod_eq_of_lt (by omega)]
    omega
  · rw [show s.rd + 2 * s.cap - nb = (s.rd - nb) + s.cap + s.cap by omega, Nat.add_mod_right, Nat.add_mod_right,
      Nat.mod_eq_of_lt (by omega)]
    omega

theorem rewoundCursor_lt {s : State} {nb : Nat} (hr : s.rd < s.cap) (h : nb ≤ s.rd + s.cap) :
    rewoundCursor s nb < s.cap := by
  rw [rewoundCursor_eq hr h]
  exact Nat.mod_lt _ (cap_pos s)

/-! ### a command with its fault condition -/

/-- Everything `performUnless` can do: the fault entry, or what the command itself does. -/
theorem performUnless_cases {c : Option Cause} {s : State} {p o : Host.Outcome State Fault Refusal}
    (h : performUnless c s p = o) : (∃ d, c = some d ∧ o = .next (faultEntry d s)) ∨ (c = none ∧ o = p) := by
  cases c with
  | none => exact .inr ⟨rfl, h.symm⟩
  | some d => exact .inl ⟨d, rfl, h.symm⟩

@[simp] theorem performUnless_none (s : State) (p : Host.Outcome State Fault Refusal) :
    performUnless none s p = p := rfl

@[simp] theorem performUnless_some (d : Cause) (s : State) (p : Host.Outcome State Fault Refusal) :
    performUnless (some d) s p = .next (faultEntry d s) := rfl

end Sys2Proof.Machine
end

