-- ==== Sys2Proof/Laws/Exec.lean ====
section
/-! SUPPORT. What a fault condition says, and everything each command and a command word can do: one inversion lemma
per function, cited instead of unfolding it. -/

namespace Sys2Proof.Machine

variable {s t : State}

/-! ### fault conditions -/

theorem readFault_silent (h : s.mode = .silent) (n : Nat) : readFault s n = none := by simp [readFault, h]

theorem readFault_checked (h : s.mode = .checked) (n : Nat) :
    readFault s n = if n = 0 ∨ s.cap < n then some .invalidArg else if s.avail < n then some .underflow else none := by
  simp [readFault, h]

theorem read1Fault_silent (h : s.mode = .silent) : read1Fault s = none := by simp [read1Fault, h]

theorem read1Fault_checked (h : s.mode = .checked) :
    read1Fault s = if s.avail = 0 then some .underflow else none := by simp [read1Fault, h]

theorem writeFault_silent (h : s.mode = .silent) : writeFault s = none := by simp [writeFault, h]

theorem writeFault_checked (h : s.mode = .checked) :
    writeFault s = if s.cap < s.avail + 8 then some .overflow else none := by simp [writeFault, h]

theorem rewindFault_silent (h : s.mode = .silent) (nb : Nat) :
    rewindFault s nb = if s.rd + s.cap < nb then some .invalidArg else none := by simp [rewindFault, h]

theorem rewindFault_checked (h : s.mode = .checked) (nb : Nat) :
    rewindFault s nb = if s.cap < nb then some .invalidArg else if s.hist < nb then some .underflow else none := by
  simp [rewindFault, h]

/-- A read that is not refused, in CHECKED mode. -/
theorem readFault_none_checked (h : s.mode = .checked) {n : Nat} (hn : readFault s n = none) :
    1 ≤ n ∧ n ≤ s.cap ∧ n ≤ s.avail := by
  rw [readFault_checked h] at hn
  split_ifs at hn
  omega

theorem read1Fault_none_checked (h : s.mode = .checked) (hn : read1Fault s = none) : 1 ≤ s.avail := by
  rw [read1Fault_checked h] at hn
  split_ifs at hn
  omega

theorem writeFault_none_checked (h : s.mode = .checked) (hn : writeFault s = none) : s.avail + 8 ≤ s.cap := by
  rw [writeFault_checked h] at hn
  split_ifs at hn
  omega

theorem rewindFault_none_checked (h : s.mode = .checked) {nb : Nat} (hn : rewindFault s nb = none) :
    nb ≤ s.cap ∧ nb ≤ s.hist := by
  rw [rewindFault_checked h] at hn
  split_ifs at hn
  omega

/-- In either mode a rewind that is not refused is within `RD + CAP`, where one wrap is enough. -/
theorem rewindFault_none_le {nb : Nat} (hn : rewindFault s nb = none) : nb ≤ s.rd + s.cap := by
  cases hm : s.mode with
  | silent =>
    rw [rewindFault_silent hm] at hn
    split_ifs at hn
    omega
  | checked =>
    have := rewindFault_none_checked hm hn
    omega

/-! ### the commands -/

theorem exec_pos_eq (s : State) : exec .pos s = .next (respond .ok s.tot s) := rfl

/-- Everything READN can do. -/
theorem exec_readn_cases {n : Arg} (h : exec (.readn n) s = .next t) :
    (∃ c, readFault s (countOf n) = some c ∧ t = faultEntry c s) ∨
    (readFault s (countOf n) = none ∧
      t = respond .ok (u32 (pack s s.rd (countOf n))) (countRead (countOf n) (advanceRead (countOf n) s))) := by
  obtain ⟨c, hc, ht⟩ | ⟨hc, ht⟩ := performUnless_cases h
  · exact .inl ⟨c, hc, by injection ht⟩
  · exact .inr ⟨hc, by injection ht⟩

/-- Everything READ1 can do, where its cell exists. -/
theorem exec_read1_cases (hr : s.rd < s.cap) (h : exec .read1 s = .next t) :
    (∃ c, read1Fault s = some c ∧ t = faultEntry c s) ∨
    (read1Fault s = none ∧
      t = respond .ok ((s.cell s.rd).setWidth 32) (countRead 1 (advanceRead 1 s))) := by
  obtain ⟨c, hc, ht⟩ | ⟨hc, ht⟩ := performUnless_cases h
  · exact .inl ⟨c, hc, by injection ht⟩
  · rw [memRead_of_lt hr] at ht
    exact .inr ⟨hc, by injection ht⟩

/-- Everything READ1 can do, its cell being read. -/
theorem exec_read1_next (h : exec .read1 s = .next t) :
    (∃ c, read1Fault s = some c ∧ t = faultEntry c s) ∨ (s.rd < s.cap ∧ read1Fault s = none) := by
  obtain ⟨c, hc, ht⟩ | ⟨hc, ht⟩ := performUnless_cases h
  · exact .inl ⟨c, hc, by injection ht⟩
  · by_cases hr : s.rd < s.cap
    · exact .inr ⟨hr, hc⟩
    · rw [memRead_of_ge (by omega)] at ht
      cases ht

/-- The storage a performed WR8 leaves. -/
structure WroteByte (s : State) (v : Byte) (m : Memory) : Prop where
  wf    : Memory.wf m = true
  below : Memory.below s.cap s.ring = true → Memory.below s.cap m = true
  read  : ∀ i, Memory.read m i = if s.wr ≤ i ∧ i < s.wr + 8 then byteBit v (i - s.wr) else Memory.read s.ring i

/-- WR8 where its cells exist: the fault entry, or the byte written. -/
theorem exec_wr8_eq (hw : Memory.wf s.ring = true) (hc : s.wr + 8 ≤ s.cap) (v : Byte) :
    ∃ m, WroteByte s v m ∧ exec (.wr8 v) s =
      performUnless (writeFault s) s (.next (respond .ok 0 (countWrite (advanceWrite (setRing m s))))) := by
  obtain ⟨m, he, hm, hb, hr⟩ := writeBits_spec hw v 8 hc
  exact ⟨m, ⟨hm, hb, hr⟩, by simp only [exec, execWr8, he]⟩

/-- Everything WR8 can do, where its cells exist. -/
theorem exec_wr8_cases {v : Byte} (hw : Memory.wf s.ring = true) (hc : s.wr + 8 ≤ s.cap)
    (h : exec (.wr8 v) s = .next t) :
    (∃ c, writeFault s = some c ∧ t = faultEntry c s) ∨
    (writeFault s = none ∧ ∃ m, WroteByte s v m ∧
      t = respond .ok 0 (countWrite (advanceWrite (setRing m s)))) := by
  obtain ⟨m, hm, he⟩ := exec_wr8_eq hw hc v
  obtain ⟨c, hc, ht⟩ | ⟨hc, ht⟩ := performUnless_cases (he.symm.trans h)
  · exact .inl ⟨c, hc, by injection ht⟩
  · exact .inr ⟨hc, m, hm, by injection ht⟩

/-- Everything the rewind core can do. -/
theorem rewind_cases {nb : Nat} (h : rewind nb s = .next t) :
    (∃ c, rewindFault s nb = some c ∧ t = faultEntry c s) ∨
    (rewindFault s nb = none ∧ t = respond .ok 0 (countRewind nb (moveBack nb s))) := by
  obtain ⟨c, hc, ht⟩ | ⟨hc, ht⟩ := performUnless_cases h
  · exact .inl ⟨c, hc, by injection ht⟩
  · exact .inr ⟨hc, by injection ht⟩

theorem exec_rewbits_eq (n : Arg) (s : State) : exec (.rewbits n) s = rewind n.toNat s := rfl

theorem exec_rewbytes_eq (n : Arg) (s : State) : exec (.rewbytes n) s = rewind (8 * n.toNat) s := rfl

/-! ### a command word -/

/-- Everything a command word can do. -/
theorem performWord_cases {w : Word} (h : performWord w s = .next t) :
    (s.flt = true ∧ t = refuseHalted s) ∨
    (s.flt = false ∧ (∃ e, decode w = .error e) ∧ t = faultEntry .illegal s) ∨
    (s.flt = false ∧ ∃ i, decode w = .ok i ∧ exec i s = .next t) := by
  simp only [performWord] at h
  split_ifs at h with hf
  · exact .inl ⟨hf, by injection h with h; exact h.symm⟩
  · rw [Bool.not_eq_true] at hf
    cases hd : decode w with
    | error e =>
      rw [hd] at h
      exact .inr (.inl ⟨hf, ⟨e, rfl⟩, by injection h with h; exact h.symm⟩)
    | ok i =>
      rw [hd] at h
      exact .inr (.inr ⟨hf, i, rfl, h⟩)

end Sys2Proof.Machine
end

