-- ==== Sys2Proof/Laws/Frame.lean ====
section
/-! SUPPORT. Rule R40 (spec/10_state.md): a command's outcome is a function of the BRB's state, the configuration and the
word; everything else of the state is carried through unread. -/

namespace Sys2Proof.Machine

/-- The BRB's state of `s`, and everything else of `u`. -/
def onto (u s : State) : State := withBlock s.toBlock u

@[simp] theorem onto_flt (u s : State) : (onto u s).flt = s.flt := rfl

@[simp] theorem onto_mode (u s : State) : (onto u s).mode = s.mode := rfl

@[simp] theorem onto_rd (u s : State) : (onto u s).rd = s.rd := rfl

@[simp] theorem onto_cfg (u s : State) : (onto u s).cfg = u.cfg := rfl

@[simp] theorem onto_cell (u s : State) (i : Nat) : (onto u s).cell i = s.cell i := rfl

@[simp] theorem onto_self (s : State) : onto s s = s := rfl

variable {u s : State}

theorem pack_onto (h : u.cfg = s.cfg) (b n : Nat) : pack (onto u s) b n = pack s b n :=
  pack_congr fun k _ => by simp [ringIdx, h]

theorem cap_onto (h : u.cfg = s.cfg) : (onto u s).cap = s.cap := by simp [State.cap, h]

theorem memWrite_onto (h : u.cfg = s.cfg) (i : Nat) (b : Bit) :
    memWrite (onto u s) i b = (memWrite s i b).map (onto u) := by
  simp only [memWrite, cap_onto h]
  split_ifs <;> rfl

theorem writeBits_cfg {t : State} {v : Byte} : ∀ {n : Nat}, writeBits s v n = some t → t.cfg = s.cfg
  | 0, h => by injection h with h; rw [h]
  | n + 1, h => by
    obtain ⟨t', ht, h⟩ := Option.bind_eq_some_iff.mp h
    simp only [memWrite] at h
    split_ifs at h
    injection h with h
    rw [← h, setRing_cfg, writeBits_cfg ht]

theorem writeBits_onto (h : u.cfg = s.cfg) (v : Byte) : ∀ n, writeBits (onto u s) v n = (writeBits s v n).map (onto u)
  | 0 => rfl
  | n + 1 => by
    rw [writeBits, writeBits, writeBits_onto h v n]
    cases hw : writeBits s v n with
    | none => rfl
    | some t => exact memWrite_onto (h.trans (writeBits_cfg hw).symm) _ _

theorem countRead_onto (n : Nat) (s : State) : countRead n (onto u s) = onto u (countRead n s) := by
  cases h : s.mode <;> simp [countRead, onto, withBlock, h]

theorem countWrite_onto (h : u.cfg = s.cfg) : countWrite (onto u s) = onto u (countWrite s) := by
  cases hm : s.mode with
  | silent => simp [countWrite, hm]
  | checked =>
    simp only [countWrite, onto_mode, hm, cap_onto h]
    rfl

theorem countRewind_onto (n : Nat) (s : State) : countRewind n (onto u s) = onto u (countRewind n s) := by
  cases h : s.mode <;> simp [countRewind, onto, withBlock, h]

theorem advanceRead_onto (h : u.cfg = s.cfg) (n : Nat) : advanceRead n (onto u s) = onto u (advanceRead n s) := by
  simp [advanceRead, onto, withBlock, ringIdx, h]

theorem advanceWrite_onto (h : u.cfg = s.cfg) : advanceWrite (onto u s) = onto u (advanceWrite s) := by
  simp [advanceWrite, onto, withBlock, State.cap, h]

theorem moveBack_onto (h : u.cfg = s.cfg) (n : Nat) : moveBack n (onto u s) = onto u (moveBack n s) := by
  simp [moveBack, rewoundCursor, onto, withBlock, State.cap, h]

theorem readFault_onto (h : u.cfg = s.cfg) (n : Nat) : readFault (onto u s) n = readFault s n := by
  simp only [readFault, cap_onto h, onto_mode]
  rfl

theorem writeFault_onto (h : u.cfg = s.cfg) : writeFault (onto u s) = writeFault s := by
  simp only [writeFault, cap_onto h, onto_mode]
  rfl

theorem rewindFault_onto (h : u.cfg = s.cfg) (n : Nat) : rewindFault (onto u s) n = rewindFault s n := by
  simp only [rewindFault, cap_onto h, onto_mode]
  rfl

theorem performUnless_onto (c : Option Cause) (s : State) (p : Host.Outcome State Fault Refusal) :
    performUnless c (onto u s) (onNext (onto u) p) = onNext (onto u) (performUnless c s p) := by cases c <;> rfl

/-- The rewind core reads and writes the BRB's state alone. -/
theorem rewind_onto (h : u.cfg = s.cfg) (nb : Nat) : rewind nb (onto u s) = onNext (onto u) (rewind nb s) := by
  rw [rewind, rewind, rewindFault_onto h, moveBack_onto h, countRewind_onto, ← performUnless_onto]
  rfl

/-- Every command reads and writes the BRB's state alone, the configuration its only other argument. -/
theorem exec_onto (h : u.cfg = s.cfg) (i : Instr) : exec i (onto u s) = onNext (onto u) (exec i s) := by
  cases i with
  | pos => rfl
  | readn n =>
    simp only [exec, execReadn, readFault_onto h, onto_rd, pack_onto h, advanceRead_onto h, countRead_onto]
    rw [← performUnless_onto]
    rfl
  | read1 =>
    simp only [exec, execRead1, onto_rd, memRead, cap_onto h, advanceRead_onto h, countRead_onto]
    rw [← performUnless_onto]
    split_ifs <;> rfl
  | wr8 v =>
    simp only [exec, execWr8, writeFault_onto h, writeBits_onto h]
    rw [← performUnless_onto]
    cases hw : writeBits s v 8 with
    | none => rfl
    | some t =>
      have ht := h.trans (writeBits_cfg hw).symm
      simp only [Option.map_some, advanceWrite_onto ht]
      rw [countWrite_onto (s := advanceWrite t) ht]
      rfl
  | rewbits n => exact rewind_onto h _
  | rewbytes n => exact rewind_onto h _

/-- Every command word reads and writes the BRB's state alone. -/
theorem performWord_onto (h : u.cfg = s.cfg) (w : Word) :
    performWord w (onto u s) = onNext (onto u) (performWord w s) := by
  cases hf : s.flt with
  | true => simp only [performWord, onto_flt, hf]; rfl
  | false =>
    simp only [performWord, onto_flt, hf]
    cases decode w with
    | error e => rfl
    | ok i => exact exec_onto h i

/-- The step of rule R155 with the configuration and the word as arguments, put back beside any host, is the word performed
there. -/
theorem perform_onto (u s : State) (h : u.cfg = s.cfg) (w : Word) :
    onNext (fun b => withBlock b u) (s.toBlock.perform s.cfg w) = performWord w (onto u s) := by
  rw [Block.perform, onNext_onNext]
  exact (performWord_onto (s := s.toBlock.under s.cfg) h w).symm

/-- Every command word carries the host's later acts through. -/
theorem performWord_setMoves {s t : State} {w : Word} (ms : List HostMove) (h : performWord w s = .next t) :
    performWord w (setMoves ms s) = .next (setMoves ms t) := by
  have ht : t = onto s t := by
    have := performWord_onto (u := s) (s := s) rfl w
    rw [onto_self, h] at this
    injection this
  have := performWord_onto (u := setMoves ms s) (s := s) rfl w
  rw [h] at this
  rw [ht]
  exact this

end Sys2Proof.Machine
end

