-- ==== Sys2Proof/Laws/PerInstr.lean ====
section
/-! SUPPORT. What holds of every command as syntax, one lemma per constructor: the one format of spec/30_encoding.md
rule R73 (`OP`, twelve reserved zeros, `ARG`), with the unused part of `ARG` 0 (rule R76). -/

namespace Sys2Proof.Laws.CommandFormat

/-- Rule R73, R76 of a command's word: `RSVD` is 0, `OP` selects the command, `ARG` carries its operand and nothing
else. -/
def Statement (i : Instr) : Prop :=
  rsvdField (encode i) = 0 ∧ opField (encode i) = i.opcode ∧ argField (encode i) = i.arg ∧
    match i with
    | .pos => argField (encode i) = 0
    | .read1 => argField (encode i) = 0
    | .wr8 _ => argHigh (argField (encode i)) = 0
    | .readn _ => True
    | .rewbits _ => True
    | .rewbytes _ => True

theorem pos : Statement .pos :=
  ⟨rsvdField_encode _, opField_encode _, argField_encode _, argField_encode _⟩

theorem readn (n : Arg) : Statement (.readn n) :=
  ⟨rsvdField_encode _, opField_encode _, argField_encode _, trivial⟩

theorem read1 : Statement .read1 :=
  ⟨rsvdField_encode _, opField_encode _, argField_encode _, argField_encode _⟩

theorem wr8 (v : Byte) : Statement (.wr8 v) := by
  refine ⟨rsvdField_encode _, opField_encode _, argField_encode _, ?_⟩
  show argHigh (argField (encode (.wr8 v))) = 0
  have := v.isLt
  rw [argField_encode]
  apply BitVec.eq_of_toNat_eq
  rw [argHigh_toNat]
  simp [Instr.arg]
  omega

theorem rewbits (n : Arg) : Statement (.rewbits n) :=
  ⟨rsvdField_encode _, opField_encode _, argField_encode _, trivial⟩

theorem rewbytes (n : Arg) : Statement (.rewbytes n) :=
  ⟨rsvdField_encode _, opField_encode _, argField_encode _, trivial⟩

end Sys2Proof.Laws.CommandFormat
end

