-- ==== Sys2Proof/Laws/Step.lean ====
section
/-! SUPPORT. Everything a step of the machine can do. -/

namespace Sys2Proof.Machine

variable {s t : State}

/-- The step of a legal instance, by the host's next act. -/
theorem step_legal (hl : s.cfg.legal = true) :
    step s = onNext (fun b => withBlock b (hostAfter s)) (s.toBlock.respondTo s.cfg s.strap s.moves.head?) := by
  rw [step, transact, Block.step, if_pos hl]

theorem step_illegal (hl : s.cfg.legal = false) : step s = .refused .illegalInstance := by
  rw [step, transact, Block.step, if_neg (by simp [hl])]
  rfl

theorem step_idle (hl : s.cfg.legal = true) (hm : s.moves = []) : step s = .next (withBlock s.toBlock.idle s) := by
  rw [step_legal hl, hm]
  simp [hostAfter, hm, Block.respondTo]

theorem step_command_busy {w : Word} {rest : List HostMove} (hl : s.cfg.legal = true) (hm : s.moves = .command w :: rest)
    (hb : s.busy = true) : step s = .next (withBlock s.toBlock.finishFill s) := by
  rw [step_legal hl, hm]
  simp [hostAfter, hm, hb, Block.respondTo, Block.offer]

theorem step_command_waiting {w : Word} {rest : List HostMove} {r : Response} (hl : s.cfg.legal = true)
    (hm : s.moves = .command w :: rest) (hb : s.busy = false) (hr : s.rsp = some r) : step s = .next (takeResponse s) := by
  rw [step_legal hl, hm]
  simp [hostAfter, hm, hb, hr, Block.respondTo, Block.offer, takeResponse, withBlock]

/-- A ready block performs the word, the host's later acts left. -/
theorem step_command_ready {w : Word} {rest : List HostMove} (hl : s.cfg.legal = true)
    (hm : s.moves = .command w :: rest) (hb : s.busy = false) (hr : s.rsp = none) :
    step s = performWord w (setMoves rest s) := by
  have hh : hostAfter s = setMoves rest s := by
    simp only [hostAfter, hm, hb, hr]
    rfl
  rw [step_legal hl, hm, hh]
  simp only [List.head?_cons, Block.respondTo, Block.offer, hb, hr]
  exact perform_onto (setMoves rest s) s rfl w

theorem step_takeResponse {rest : List HostMove} (hl : s.cfg.legal = true) (hm : s.moves = .takeResponse :: rest) :
    step s = .next (takeResponse (setMoves rest s)) := by
  rw [step_legal hl, hm]
  simp [hostAfter, hm, Block.respondTo, takeResponse, setMoves, withBlock]

theorem step_driveCheckMode {m : CheckMode} {rest : List HostMove} (hl : s.cfg.legal = true)
    (hm : s.moves = .driveCheckMode m :: rest) : step s = .next { s with strap := m, moves := rest } := by
  rw [step_legal hl, hm]
  simp [hostAfter, hm, Block.respondTo, withBlock]

theorem step_reset {rest : List HostMove} (hl : s.cfg.legal = true) (hm : s.moves = .reset :: rest) :
    step s = .next { State.resetTo s.cfg s.strap with moves := rest } := by
  rw [step_legal hl, hm]
  simp [hostAfter, hm, Block.respondTo, Block.applyReset, State.resetTo, withBlock]

/-- Everything a step can do: nothing offered, a word offered to a block that is not ready or is, a response taken, the
strap driven, a reset. -/
theorem step_cases (h : step s = .next t) : s.cfg.legal = true ∧
    ((s.moves = [] ∧ t = withBlock s.toBlock.idle s) ∨
      (∃ w rest, s.moves = .command w :: rest ∧
        ((s.busy = true ∧ t = withBlock s.toBlock.finishFill s) ∨
          (s.busy = false ∧ (∃ r, s.rsp = some r) ∧ t = takeResponse s) ∨
          (s.busy = false ∧ s.rsp = none ∧ performWord w (setMoves rest s) = .next t))) ∨
      (∃ rest, s.moves = .takeResponse :: rest ∧ t = takeResponse (setMoves rest s)) ∨
      (∃ m rest, s.moves = .driveCheckMode m :: rest ∧ t = { s with strap := m, moves := rest }) ∨
      (∃ rest, s.moves = .reset :: rest ∧ t = { State.resetTo s.cfg s.strap with moves := rest })) := by
  cases hl : s.cfg.legal with
  | false =>
    rw [step_illegal hl] at h
    cases h
  | true =>
    refine ⟨rfl, ?_⟩
    cases hm : s.moves with
    | nil =>
      rw [step_idle hl hm] at h
      injection h with h
      exact .inl ⟨rfl, h.symm⟩
    | cons a rest =>
      cases a with
      | command w =>
        refine .inr (.inl ⟨w, rest, rfl, ?_⟩)
        cases hb : s.busy with
        | true =>
          rw [step_command_busy hl hm hb] at h
          injection h with h
          exact .inl ⟨rfl, h.symm⟩
        | false =>
          cases hr : s.rsp with
          | some r =>
            rw [step_command_waiting hl hm hb hr] at h
            injection h with h
            exact .inr (.inl ⟨rfl, ⟨r, rfl⟩, h.symm⟩)
          | none =>
            rw [step_command_ready hl hm hb hr] at h
            exact .inr (.inr ⟨rfl, rfl, h⟩)
      | takeResponse =>
        rw [step_takeResponse hl hm] at h
        injection h with h
        exact .inr (.inr (.inl ⟨rest, rfl, h.symm⟩))
      | driveCheckMode m =>
        rw [step_driveCheckMode hl hm] at h
        injection h with h
        exact .inr (.inr (.inr (.inl ⟨m, rest, rfl, h.symm⟩)))
      | reset =>
        rw [step_reset hl hm] at h
        injection h with h
        exact .inr (.inr (.inr (.inr ⟨rest, rfl, h.symm⟩)))

end Sys2Proof.Machine
end

