-- ==== Sys2Proof/Tests/Slice0.lean ====
section
/-! SUPPORT. Tests with expected results from the spec (spec/30_encoding.md rule R73, R84 to R86, spec/95_test_vectors.md),
each one step or one decoding; and, for every statement with hypotheses, concrete values that meet them all. -/

namespace Sys2Proof.Tests

open Sys2Proof Sys2Proof.Machine

/-! ### Small states -/

/-- The cells a list of bits fills from an index on, 0 not listed. -/
def cellsFrom : Nat → List Bit → Memory
  | _, [] => []
  | i, b :: bs => if b = 0 then cellsFrom (i + 1) bs else (i, b) :: cellsFrom (i + 1) bs

/-- A ring of 16 cells that starts with these bytes, and the registers. -/
def ring16 (m : CheckMode) (bytes : List Byte) (rd wr tot avail hist : Nat) : State :=
  { State.resetTo { capLog2 := 4 } m with
    ring := cellsFrom 0 (bytes.flatMap byteBits)
    rd := rd
    wr := wr
    tot := BitVec.ofNat 32 tot
    avail := avail
    hist := hist }

/-- Just reset, 16 cells, CHECKED. -/
def checked16 : State := ring16 .checked [] 0 0 0 0 0

/-- Just reset, 16 cells, SILENT. -/
def silent16 : State := ring16 .silent [] 0 0 0 0 0

/-- 16 cells, CHECKED, full: the state before V-r5. -/
def full16 : State := ring16 .checked [0xA5, 0x3C] 0 0 0 16 0

/-- 16 cells, CHECKED, all consumed: the state before V-w5. -/
def consumed16 : State := ring16 .checked [0xA5, 0x3C] 0 0 16 0 16

/-- 16 cells, CHECKED, halfway: the state before V-r4. -/
def half16 : State := ring16 .checked [0xA5] 4 8 4 4 4

/-- 16 cells, CHECKED, the state of V-rb1 before its rewind. -/
def late16 : State := ring16 .checked [0xA5, 0x3C] 12 0 12 4 12

/-- The end state of V-r4: faulted with `UNDERFLOW`. -/
def halted16 : State := { half16 with flt := true, cause := 3 }

/-- The next state, if there is one. -/
def nextOf (o : Host.Outcome State Fault Refusal) : Option State :=
  match o with
  | .next t => some t
  | .fault _ => none
  | .refused _ => none

/-- The response of the next state, as the numbers of the spec's vectors. -/
def answer (o : Host.Outcome State Fault Refusal) : Option (Nat × Nat) :=
  (nextOf o).bind fun t => t.rsp.map fun r => (r.status.code.toNat, r.data.toNat)

/-- `RD`, `WR`, `TOT`, `AVAIL`, `HIST` of the next state, as a row of the spec's vectors. -/
def regs (o : Host.Outcome State Fault Refusal) : Option (List Nat) :=
  (nextOf o).map fun t => [t.rd, t.wr, t.tot.toNat, t.avail, t.hist]

/-- `FLT` and `CAUSE` of the next state. -/
def faultOf (o : Host.Outcome State Fault Refusal) : Option (Bool × Nat) :=
  (nextOf o).map fun t => (t.flt, t.cause.toNat)

/-- The ring of the next state as bytes from cell 0. -/
def ringOf (o : Host.Outcome State Fault Refusal) : Option (List Nat) :=
  (nextOf o).map fun t =>
    (List.range (t.cap / 8)).map fun j =>
      (List.range 8).foldl (fun v k => 2 * v + (t.cell (8 * j + k)).toNat) 0

/-- The command a word decodes to. -/
def decoded (w : Word) : Option Instr := (decode w).toOption

/-! ### WellFormed: an ill-formed term for each check -/

theorem test_capLog2_2_illegal : Config.legal { capLog2 := 2 } = false := by decide
theorem test_capLog2_16_illegal : Config.legal { capLog2 := 16 } = false := by decide
theorem test_capLog2_ends_legal : Config.legal { capLog2 := 3 } = true ∧ Config.legal { capLog2 := 15 } = true := by decide
theorem test_count_65536_refused : countInRange 65536 = false ∧ countInRange 65535 = true := by decide
theorem test_byte_256_refused : byteInRange 256 = false ∧ byteInRange 255 = true := by decide
theorem test_word_too_wide_refused : wordInRange 4294967296 = false ∧ wordInRange 4294967295 = true := by decide

/-! ### Decoding: each command's word bit by bit, `OP` `RSVD` `ARG` (rule R73, R74) -/

theorem test_decode_pos : decoded 0b0001_000000000000_0000000000000000#32 = some .pos := by decide
theorem test_decode_readn : decoded 0b0010_000000000000_1000000000000110#32 = some (.readn 0x8006) := by decide
theorem test_decode_read1 : decoded 0b0011_000000000000_0000000000000000#32 = some .read1 := by decide
theorem test_decode_wr8 : decoded 0b0100_000000000000_0000000010110100#32 = some (.wr8 0xB4) := by decide
theorem test_decode_rewbits : decoded 0b0101_000000000000_0100000000000001#32 = some (.rewbits 0x4001) := by decide
theorem test_decode_rewbytes : decoded 0b0110_000000000000_1000000000000010#32 = some (.rewbytes 0x8002) := by decide

/-- V-d1 to V-d9. -/
theorem test_decode_illegal_words :
    [0x00000000#32, 0x70000000#32, 0xF0000000#32, 0x8000FFFF#32, 0x10000001#32, 0x30000001#32, 0x40000100#32,
      0x20010004#32, 0x1FFF0000#32].map decoded = List.replicate 9 none := by decide

/-- V-d10 to V-d14. -/
theorem test_decode_edge_words :
    [0x2000FFFF#32, 0x400000FF#32, 0x40000000#32, 0x50000000#32, 0x6000FFFF#32].map decoded =
      [some (.readn 0xFFFF), some (.wr8 0xFF), some (.wr8 0), some (.rewbits 0), some (.rewbytes 0xFFFF)] := by decide

/-- The words of program P1's and P2's lines (rule R84). -/
theorem test_encode_words :
    [Instr.wr8 0xB4, .readn 12, .pos, .rewbits 4, .read1, .rewbytes 2].map encode =
      [0x400000B4#32, 0x2000000C#32, 0x10000000#32, 0x50000004#32, 0x30000000#32, 0x60000002#32] := by decide

theorem test_decodeTableWord : decodeTableWord 32 0x400000B4 = some (.wr8 0xB4) ∧ decodeTableWord 32 0x40000100 = none := by
  decide

/-! ### The command language (rule R84, R85; lines of P1, P4) -/

theorem test_assemble_line : assembleLine "        WR8   0xB4        ; 0x400000B4".toList = .ok [0x400000B4] := by decide
theorem test_assemble_word_line : assembleLine ".word 0x00000000  ; illegal word".toList = .ok [0x00000000] := by decide
theorem test_assemble_binary_byte : assembleLine "WR8 0b10110100".toList = .ok [0x400000B4] := by decide
theorem test_assemble_peek : assembleLine "PEEK 4".toList = .ok [0x20000004, 0x50000004] := by decide
theorem test_assemble_wrseq : assembleLine "WRSEQ 0xA5, 0x3C".toList = .ok [0x400000A5, 0x4000003C] := by decide
theorem test_assemble_text :
    assembleText ["; P1".toList, "".toList, "READ8".toList, "POS".toList] = .ok [0x20000008, 0x10000000] := by decide
theorem test_assemble_out_of_range : assembleLine "WR8 256".toList = .error .outOfRange := by decide
theorem test_assemble_lower_case : assembleLine "pos".toList = .error .unknownMnemonic := by decide
theorem test_assemble_missing_operand : assembleLine "READN".toList = .error .badOperand := by decide

/-! ### One command each, at most two tests (spec/95_test_vectors.md) -/

/-- V-p3: `TOT` below 0 wraps. -/
theorem test_pos_wrapped_total : answer (exec .pos (ring16 .silent [] 0 0 0xFFFFFFF0 0 0)) = some (0, 0xFFFFFFF0) := by decide

/-- V-r6: `RD + N = CAP` leaves `RD = 0`. -/
theorem test_readn_boundary_equality :
    let o := exec (.readn 8) (ring16 .checked [0xA5, 0x3C] 8 0 8 8 8)
    answer o = some (0, 0x3C) ∧ regs o = some [0, 0, 16, 0, 16] := by decide

/-- V-r9: two laps, the last 32 bits. -/
theorem test_readn_multiple_wraps :
    let o := exec (.readn 40) (ring16 .silent [0xA5, 0x3C] 0 0 0 0 0)
    answer o = some (0, 0x3CA53CA5) ∧ regs o = some [8, 0, 40, 0, 0] := by decide

/-- V-r13. -/
theorem test_read1_last_cell :
    let o := exec .read1 (ring16 .checked [0xA5, 0x3C] 15 0 15 1 15)
    answer o = some (0, 0) ∧ regs o = some [0, 0, 16, 0, 16] := by decide

/-- V-r15. -/
theorem test_read1_underflow :
    answer (exec .read1 checked16) = some (3, 0) ∧ faultOf (exec .read1 checked16) = some (true, 3) := by decide

/-- V-w5: the write takes consumed cells, so the history shrinks. -/
theorem test_wr8_history :
    let o := exec (.wr8 0xF0) consumed16
    ringOf o = some [0xF0, 0x3C] ∧ regs o = some [0, 8, 16, 8, 8] := by decide

/-- V-w3. -/
theorem test_wr8_overflow :
    let o := exec (.wr8 0xF0) full16
    answer o = some (4, 0) ∧ faultOf o = some (true, 4) ∧ ringOf o = some [0xA5, 0x3C] := by decide

/-- V-rb3: the cursor goes below 0 and wraps. -/
theorem test_rewbits_wraps :
    let o := exec (.rewbits 6) (ring16 .checked [0xF0, 0x3C] 4 8 20 4 12)
    answer o = some (0, 0) ∧ regs o = some [14, 8, 14, 10, 6] := by decide

/-- V-rb11: one bit more than `RD + CAP`. -/
theorem test_rewbits_silent_limit :
    let o := exec (.rewbits 20) (ring16 .silent [] 3 0 3 0 0)
    answer o = some (2, 0) ∧ faultOf o = some (true, 2) ∧ regs o = some [3, 0, 3, 0, 0] := by decide

/-- V-rb1. -/
theorem test_rewbytes_one_byte :
    let o := exec (.rewbytes 1) late16
    answer o = some (0, 0) ∧ regs o = some [4, 0, 4, 12, 4] := by decide

/-- V-rb6: eight times the count is not truncated to 16 bits. -/
theorem test_rewbytes_no_truncation :
    answer (exec (.rewbytes 0xFFFF) (State.resetTo Config.reference .silent)) = some (2, 0) := by decide

/-- V-f1: a halted block refuses an illegal word as `HALTED`. -/
theorem test_halted_outranks_illegal :
    answer (performWord 0 halted16) = some (5, 0) ∧ faultOf (performWord 0 halted16) = some (true, 3) := by decide

/-- V-f5: the mode comes from the input at the reset. -/
theorem test_reset_samples_mode :
    nextOf (step { halted16 with strap := .silent, moves := [.reset] }) = some silent16 := by decide

/-- The first word after reset, V-p1. -/
theorem test_first_word_after_reset : answer (step (State.reset.withFetchWord 32 0x10000000)) = some (0, 0) := by decide

/-- A fill in progress ends before a word is accepted (rule R32, R71). -/
theorem test_busy_fill_ends :
    nextOf (step { full16 with busy := true, moves := [.command 0x10000000] }) =
      some { full16 with ring := [], moves := [.command 0x10000000] } := by decide

/-! ### Witnesses: every statement with hypotheses has values that meet them -/

theorem wf_checked16 : checked16.WF := by constructor <;> decide
theorem wf_silent16 : silent16.WF := by constructor <;> decide
theorem wf_full16 : full16.WF := by constructor <;> decide
theorem wf_consumed16 : consumed16.WF := by constructor <;> decide
theorem wf_half16 : half16.WF := by constructor <;> decide
theorem wf_late16 : late16.WF := by constructor <;> decide
theorem wf_halted16 : halted16.WF := by constructor <;> decide

/-- The history of `half16`: one byte written, four bits consumed. -/
def halfSession : Session := { written := byteBits 0xA5, consumed := 4 }

/-- The history of `consumed16`: two bytes written, all consumed. -/
def consumedSession : Session := { written := byteBits 0xA5 ++ byteBits 0x3C, consumed := 16 }

theorem tracks_half16 : Tracks halfSession half16 where
  wf := wf_half16
  mode := by decide
  consumed := by decide
  history := by decide
  unread := by decide
  retained := by
    have h : ∀ k, k < 5 → 1 ≤ k → half16.cell ((half16.rd + half16.cap - k) % half16.cap) =
      halfSession.written.getD (halfSession.consumed - k) 0 := by decide
    exact fun k h1 h2 => h k (Nat.lt_succ_of_le h2) h1
  fresh := by decide

theorem tracks_consumed16 : Tracks consumedSession consumed16 where
  wf := wf_consumed16
  mode := by decide
  consumed := by decide
  history := by decide
  unread := by decide
  retained := by
    have h : ∀ k, k < 17 → 1 ≤ k → consumed16.cell ((consumed16.rd + consumed16.cap - k) % consumed16.cap) =
      consumedSession.written.getD (consumedSession.consumed - k) 0 := by decide
    exact fun k h1 h2 => h k (Nat.lt_succ_of_le h2) h1
  fresh := by decide

theorem witness_DecodeEncodeAgree :
    decoded 0x6000FFFF = some (.rewbytes 0xFFFF) ∧ (0x6000FFFF : Word) = encode (.rewbytes 0xFFFF) := by decide

/-- Each disjunct of the illegal words at its boundary, and a legal word at every field's edge. -/
theorem witness_IllegalWordsFault :
    checked16.flt = false ∧
    ((0x20010004 : Word).toNat / 2 ^ 16 % 2 ^ 12 ≠ 0 ∧ (0x0FFF0000 : Word).toNat / 2 ^ 16 % 2 ^ 12 ≠ 0) ∧
    (0x0000FFFF : Word).toNat / 2 ^ 28 = 0 ∧ 7 ≤ (0x70000000 : Word).toNat / 2 ^ 28 ∧
    ((0x10000001 : Word).toNat / 2 ^ 28 = 1 ∧ (0x10000001 : Word).toNat % 2 ^ 16 ≠ 0) ∧
    ((0x30000001 : Word).toNat / 2 ^ 28 = 3 ∧ (0x30000001 : Word).toNat % 2 ^ 16 ≠ 0) ∧
    ((0x40000100 : Word).toNat / 2 ^ 28 = 4 ∧ (0x40000100 : Word).toNat % 2 ^ 16 / 2 ^ 8 ≠ 0) ∧
    ¬((0x400000FF : Word).toNat / 2 ^ 16 % 2 ^ 12 ≠ 0 ∨ (0x400000FF : Word).toNat / 2 ^ 28 = 0 ∨
      7 ≤ (0x400000FF : Word).toNat / 2 ^ 28 ∨
      ((0x400000FF : Word).toNat / 2 ^ 28 = 1 ∨ (0x400000FF : Word).toNat / 2 ^ 28 = 3) ∧
        (0x400000FF : Word).toNat % 2 ^ 16 ≠ 0 ∨
      (0x400000FF : Word).toNat / 2 ^ 28 = 4 ∧ (0x400000FF : Word).toNat % 2 ^ 16 / 2 ^ 8 ≠ 0) := by decide

theorem witness_AssembledWords : (65535 ≤ 65535 ∧ ¬65536 ≤ 65535) ∧ (255 ≤ 255 ∧ ¬256 ≤ 255) ∧ (2 ^ 32 - 1 < 2 ^ 32 ∧ ¬2 ^ 32 < 2 ^ 32) := by
  decide

theorem witness_PseudoInstructionExpansions : 65535 ≤ 65535 ∧ ∀ b ∈ [0, 255], b ≤ 255 := by decide

theorem witness_PosMeaning :
    checked16.flt = false ∧ (0x10000001 : Word).toNat / 2 ^ 28 = 1 ∧ (0x10000001 : Word) ≠ 0x10000000 ∧
    halted16.flt = true := by decide

/-- Both width cases at 32, and a read of each kind that is performed. -/
theorem witness_PackedValue :
    32 ≤ 32 ∧ (∃ t d, exec (.readn 16) full16 = .next t ∧ t.rsp = some { status := .ok, data := d }) ∧
    (∃ t d, exec .read1 full16 = .next t ∧ t.rsp = some { status := .ok, data := d }) :=
  ⟨by decide, ⟨_, 0xA53C, rfl, by decide⟩, _, 1, rfl, by decide⟩

/-- The four cases of READN, each count at the end of its range. -/
theorem witness_ReadnMeaning :
    silent16.mode = .silent ∧
    (full16.mode = .checked ∧ (0 : Arg).toNat = 0 ∧ full16.cap < (17 : Arg).toNat) ∧
    (half16.mode = .checked ∧ 1 ≤ (5 : Arg).toNat ∧ (5 : Arg).toNat ≤ half16.cap ∧ half16.avail < (5 : Arg).toNat) ∧
    (checked16.avail < (1 : Arg).toNat ∧ checked16.avail < (16 : Arg).toNat ∧ (16 : Arg).toNat ≤ checked16.cap) ∧
    ((16 : Arg).toNat ≤ full16.cap ∧ (16 : Arg).toNat ≤ full16.avail ∧ 1 ≤ (1 : Arg).toNat ∧ (1 : Arg).toNat ≤ full16.avail) := by
  decide

theorem witness_Read1Meaning :
    (checked16.flt = false ∧ (0x30000001 : Word).toNat / 2 ^ 28 = 3 ∧ (0x30000001 : Word) ≠ 0x30000000) ∧
    (silent16.WF ∧ silent16.mode = .silent) ∧ (checked16.WF ∧ checked16.mode = .checked ∧ checked16.avail = 0) ∧
    ((ring16 .checked [0xA5, 0x3C] 15 0 15 1 15).WF ∧ 1 ≤ (ring16 .checked [0xA5, 0x3C] 15 0 15 1 15).avail) :=
  ⟨by decide, ⟨wf_silent16, by decide⟩, ⟨wf_checked16, by decide⟩, by constructor <;> decide, by decide⟩

theorem witness_Read1EqualsReadn1 : late16.WF := wf_late16

theorem witness_ReadEndingOnLastCell :
    (late16.rd + (4 : Arg).toNat = late16.cap ∧ late16.mode = .checked ∧ 1 ≤ (4 : Arg).toNat ∧ (4 : Arg).toNat ≤ late16.avail) ∧
    (silent16.rd + (16 : Arg).toNat = silent16.cap ∧ silent16.mode ≠ .checked) := by decide

/-- The overflow from the first count that overflows; the write up to the last that does not; SILENT. -/
theorem witness_Wr8Meaning :
    (checked16.flt = false ∧ (0x40000100 : Word).toNat / 2 ^ 28 = 4 ∧ 2 ^ 8 ≤ (0x40000100 : Word).toNat % 2 ^ 28) ∧
    (full16.WF ∧ full16.mode = .checked ∧ full16.cap < full16.avail + 8) ∧
    ((ring16 .checked [0xA5, 0x3C] 7 0 7 9 7).WF ∧ 16 < (ring16 .checked [0xA5, 0x3C] 7 0 7 9 7).avail + 8) ∧
    ((ring16 .checked [0xA5] 0 8 0 8 0).WF ∧ (ring16 .checked [0xA5] 0 8 0 8 0).avail + 8 ≤ 16) ∧
    (silent16.WF ∧ (silent16.mode = .checked → silent16.avail + 8 ≤ silent16.cap)) :=
  ⟨by decide, ⟨wf_full16, by decide⟩, ⟨by constructor <;> decide, by decide⟩, ⟨by constructor <;> decide, by decide⟩, wf_silent16,
    by decide⟩

theorem witness_WriteCursorMaskedForm :
    (half16.WF ∧ (half16.mode = .checked → half16.avail + 8 ≤ half16.cap)) ∧ half16.wr + 8 = half16.cap :=
  ⟨⟨wf_half16, by decide⟩, by decide⟩

theorem witness_HistoryUnderWrite :
    (Tracks halfSession half16 ∧ half16.avail + 8 ≤ half16.cap ∧ halfSession.written.length + 8 ≤ half16.cap) ∧
    (Tracks consumedSession consumed16 ∧ consumed16.avail + 8 ≤ consumed16.cap ∧
      consumed16.cap < consumedSession.written.length + 8) ∧
    (∃ t, exec (.wr8 0xF0) consumed16 = .next t ∧ t.hist < (9 : Arg).toNat ∧ (9 : Arg).toNat ≤ consumed16.cap) :=
  ⟨⟨tracks_half16, by decide⟩, ⟨tracks_consumed16, by decide⟩, _, rfl, by decide⟩

/-- The five cases of a rewind, each count at the end of its range. -/
theorem witness_RewindMeaning :
    (silent16.WF ∧ RewindsBy (.rewbits 17) 17 ∧ silent16.rd + silent16.cap < 17) ∧
    (RewindsBy (.rewbytes 2) 16 ∧ 16 ≤ silent16.rd + silent16.cap) ∧
    (consumed16.WF ∧ consumed16.mode = .checked ∧ consumed16.cap < 17) ∧
    (half16.WF ∧ half16.mode = .checked ∧ RewindsBy (.rewbits 5) 5 ∧ 5 ≤ half16.cap ∧ half16.hist < 5) ∧
    (RewindsBy (.rewbytes 2) 16 ∧ 16 ≤ consumed16.cap ∧ 16 ≤ consumed16.hist) :=
  ⟨⟨wf_silent16, .inl ⟨17, by decide⟩, by decide⟩, ⟨.inr ⟨2, by decide⟩, by decide⟩, ⟨wf_consumed16, by decide⟩,
    ⟨wf_half16, by decide, .inl ⟨5, by decide⟩, by decide⟩, .inr ⟨2, by decide⟩, by decide⟩

theorem witness_RewbytesEqualsRewbits : 8191 ≤ 8191 ∧ (BitVec.ofNat 16 (8 * 8191)).toNat = 65528 ∧ 65535 ≤ 65535 := by decide

theorem witness_SilentModeFaults :
    (silent16.WF ∧ silent16.mode = .silent ∧ silent16.flt = false ∧ ∃ t, performWord 0x50000010 silent16 = .next t) ∧
    ((decode 0x70000000).toOption = none ∧ ∃ t, performWord 0x70000000 silent16 = .next t) ∧
    (∃ i nb, decode 0x50000010 = .ok i ∧ RewindsBy i nb ∧ nb ≤ silent16.rd + silent16.cap) ∧
    ((∃ i nb, decode 0x50000011 = .ok i ∧ RewindsBy i nb ∧ silent16.rd + silent16.cap < nb) ∧
      ∃ t, performWord 0x50000011 silent16 = .next t) :=
  ⟨⟨wf_silent16, by decide, by decide, _, rfl⟩, ⟨by decide, _, rfl⟩,
    ⟨.rewbits 16, 16, rfl, .inl ⟨16, by decide⟩, by decide⟩, ⟨.rewbits 17, 17, rfl, .inl ⟨17, by decide⟩, by decide⟩, _, rfl⟩

theorem witness_RewindIdempotence :
    full16.WF ∧ 1 ≤ (16 : Arg).toNat ∧ (16 : Arg).toNat ≤ full16.cap ∧
    ∃ t d, exec (.readn 16) full16 = .next t ∧ t.rsp = some { status := .ok, data := d } :=
  ⟨wf_full16, by decide, by decide, _, 0xA53C, rfl, by decide⟩

theorem witness_ByteRoundTrip :
    (consumed16.WF ∧ consumed16.rd = consumed16.wr ∧ (consumed16.mode = .checked → consumed16.avail + 8 ≤ consumed16.cap)) ∧
    (silent16.WF ∧ silent16.rd = silent16.wr ∧ silent16.mode ≠ .checked) :=
  ⟨⟨wf_consumed16, by decide⟩, wf_silent16, by decide⟩

/-- A command performed, a fault, and a refusal after a fault. -/
theorem witness_CheckedSessionTracksHistory :
    Config.legal { capLog2 := 3 } = true ∧
    (Tracks halfSession half16 ∧ ∃ t, performWord 0x20000004 half16 = .next t ∧
      t.rsp = some { status := .ok, data := 5 }) ∧
    (∃ t, performWord 0x20000005 half16 = .next t ∧ t.rsp = some { status := .underflow, data := 0 }) :=
  ⟨by decide, ⟨tracks_half16, _, rfl, by decide⟩, _, rfl, by decide⟩

theorem witness_CheckedReadsReturnWrittenStream :
    Tracks halfSession half16 ∧ 1 ≤ (4 : Arg).toNat ∧ (4 : Arg).toNat ≤ half16.avail := ⟨tracks_half16, by decide⟩

theorem witness_StepKeepsWellFormed :
    ({ half16 with moves := [.command 0x20000004] } : State).WF ∧
    ∃ t, step { half16 with moves := [.command 0x20000004] } = .next t :=
  ⟨by constructor <;> decide, _, rfl⟩

theorem witness_ResetWellFormed : Config.legal { capLog2 := 3 } = true ∧ Config.legal { capLog2 := 15 } = true := by decide

theorem witness_WellFormedStepAnswers : late16.WF := wf_late16

theorem witness_FaultsArePrecise :
    half16.flt = false ∧ ∃ t, performWord 0x20000005 half16 = .next t ∧ t.flt = true :=
  ⟨by decide, _, rfl, by decide⟩

/-- A word that faults and a word that does not. -/
theorem witness_FaultConditionTable :
    half16.WF ∧ half16.flt = false ∧ (∃ t, performWord 0x20000005 half16 = .next t ∧ faultCode half16 0x20000005 = 3) ∧
    (∃ t, performWord 0x20000004 half16 = .next t ∧ faultCode half16 0x20000004 = 0) :=
  ⟨wf_half16, by decide, ⟨_, rfl, by decide⟩, _, rfl, by decide⟩

theorem witness_FaultPriority :
    halted16.flt = true ∧ (checked16.flt = false ∧ (decode 0x70000000).toOption = none) ∧
    (checked16.mode = .checked ∧ decode 0x20000000 = .ok (.readn 0) ∧ decode 0x20000011 = .ok (.readn 17) ∧
      checked16.cap < (17 : Arg).toNat) ∧
    (decode 0x50000011 = .ok (.rewbits 17) ∧ RewindsBy (.rewbits 17) 17 ∧ checked16.cap < 17) ∧
    (decode 0x60000003 = .ok (.rewbytes 3) ∧ RewindsBy (.rewbytes 3) 24 ∧ checked16.cap < 24) :=
  ⟨by decide, by decide, ⟨by decide, rfl, rfl, by decide⟩, ⟨rfl, .inl ⟨17, by decide⟩, by decide⟩, rfl,
    .inr ⟨3, by decide⟩, by decide⟩

theorem witness_CommandWordPerformed :
    halted16.flt = true ∧ half16.flt = false ∧ decode 0x00000000 = .error .opcode ∧ decode 0x10000000 = .ok .pos :=
  ⟨by decide, by decide, rfl, rfl⟩

/-- Both ends: a halted block with a command offered, and one that is reset. -/
theorem witness_OnlyResetClearsFault :
    (∃ t, step { halted16 with moves := [.command 0x10000000] } = .next t) ∧
    (halted16.flt = true ∧ ∃ t, step { halted16 with moves := [.reset] } = .next t) :=
  ⟨⟨_, rfl⟩, by decide, _, rfl⟩

theorem witness_FaultedRunAnswersHalted : halted16.faulted = true ∧ halted16.rsp = none := by decide

theorem witness_ResetReachesResetState :
    ({ halted16 with moves := [.reset] } : State).cfg.legal = true ∧
    ({ halted16 with moves := [.reset] } : State).moves = .reset :: [] := by decide

theorem witness_ZeroFillEmptiesRing : Memory.wf full16.ring = true ∧ Memory.below 16 full16.ring = true := by decide

theorem witness_ModeChangesOnlyAtReset :
    (∃ t, step { half16 with moves := [.reset], strap := .silent } = .next t ∧ t.mode = .silent) ∧
    (∃ t, step { half16 with moves := [.driveCheckMode .silent] } = .next t ∧ t.mode = .checked) :=
  ⟨⟨_, rfl, by decide⟩, _, rfl, by decide⟩

/-- A command before any write, both modes; a SILENT state after reads; CHECKED counts at both ends, and a state whose bits
are all consumed. -/
theorem witness_UnwrittenCellsReadZero :
    ((∀ v, Instr.rewbits 0 ≠ .wr8 v) ∧ checked16.ring = [] ∧ checked16.avail = 0 ∧ checked16.hist = 0 ∧
      ∃ t, exec (.rewbits 0) checked16 = .next t) ∧
    ((ring16 .silent [] 13 0 13 0 0).WF ∧ (ring16 .silent [] 13 0 13 0 0).mode = .silent ∧
      (ring16 .silent [] 13 0 13 0 0).ring = []) ∧
    (consumed16.WF ∧ consumed16.mode = .checked ∧ consumed16.avail = 0 ∧ 1 ≤ (1 : Arg).toNat ∧
      (16 : Arg).toNat ≤ consumed16.cap) :=
  ⟨⟨fun _ => by simp, by decide, by decide, by decide, _, rfl⟩, ⟨by constructor <;> decide, by decide⟩, wf_consumed16, by decide⟩

/-- A command of each shape that answers a next state. -/
theorem witness_CommandsWriteOnlyTheirRegisters :
    (∃ t, exec .pos half16 = .next t) ∧ (∃ t, exec (.readn 4) half16 = .next t) ∧
    (∃ t, exec (.wr8 0xFF) silent16 = .next t ∧ silent16.mode = .silent) ∧
    (∃ t, exec (.rewbits 4) half16 = .next t ∧ t.rsp = some { status := .ok, data := 0 }) ∧
    (∃ t, exec .read1 half16 = .next t) ∧ (∃ t, exec (.rewbytes 0) half16 = .next t) :=
  ⟨⟨_, rfl⟩, ⟨_, rfl⟩, ⟨_, rfl, by decide⟩, ⟨_, rfl, by decide⟩, ⟨_, rfl⟩, _, rfl⟩

/-- A write that is performed, and a reset. -/
theorem witness_CellsKeepLastWrite :
    (({ half16 with moves := [.command 0x400000FF] } : State).WF ∧
      ∃ t, step { half16 with moves := [.command 0x400000FF] } = .next t) ∧
    (({ half16 with moves := [.reset] } : State).WF ∧ ∃ t, step { half16 with moves := [.reset] } = .next t) :=
  ⟨⟨by constructor <;> decide, _, rfl⟩, by constructor <;> decide, _, rfl⟩

theorem witness_CursorsAreIndependent :
    ((∀ v, Instr.readn 4 ≠ .wr8 v) ∧ ∃ t, exec (.readn 4) half16 = .next t) ∧ ∃ t, exec (.wr8 0xF0) consumed16 = .next t :=
  ⟨⟨fun _ => by simp, _, rfl⟩, _, rfl⟩

theorem witness_SilentModeIgnoresCounts : silent16.mode = .silent ∧ ∃ t, exec (.readn 0xFFFF) silent16 = .next t :=
  ⟨by decide, _, rfl⟩

/-- A command performed and a fault. -/
theorem witness_ResponseData :
    (∃ t, performWord 0x20000004 half16 = .next t ∧ t.rsp = some { status := .ok, data := 5 }) ∧
    (∃ t, performWord 0x20000005 half16 = .next t ∧ t.rsp = some { status := .underflow, data := 0 }) :=
  ⟨⟨_, rfl, by decide⟩, _, rfl, by decide⟩

theorem witness_ReadyStepRunsDecodedCommand :
    ({ half16 with moves := [.command 0x20000004, .takeResponse] } : State).cfg.legal = true ∧ half16.busy = false ∧
    half16.rsp = none ∧ half16.flt = false ∧ decode 0x20000004 = .ok (.readn 4) := ⟨by decide, by decide, by decide, by decide, rfl⟩

theorem witness_UnreadyCommandStaysOffered :
    let s : State := { half16 with moves := [.command 0x10000000], rsp := some { status := .ok, data := 10 } }
    s.cfg.legal = true ∧ s.busy = false ∧ s.moves = .command 0x10000000 :: [] ∧ s.rsp = some { status := .ok, data := 10 } := by
  decide

theorem witness_ResponseTakenOnce :
    let s : State := { half16 with moves := [.takeResponse, .takeResponse] }
    s.cfg.legal = true ∧ s.moves = .takeResponse :: [.takeResponse] := by decide

theorem witness_IllegalInstanceRefused :
    (State.resetTo { capLog2 := 2 } .checked).cfg.capLog2 < 3 ∧ 15 < (State.resetTo { capLog2 := 16 } .checked).cfg.capLog2 := by
  decide

theorem witness_IdleStepHoldsState : half16.cfg.legal = true ∧ half16.moves = [] ∧ half16.busy = false := by decide

theorem witness_FillEndsBeforeCommand :
    half16.cfg.legal = true ∧ ({ half16 with busy := true } : State).busy = true ∧
    ({ half16 with busy := true } : State).moves = [] ∧
    ({ half16 with busy := true, moves := [.command 0] } : State).moves = .command 0 :: [] := by decide

/-- A read cursor on the first cell that does not exist; a write cursor whose eighth cell is that one. -/
theorem witness_CellBeyondCapacityStops :
    ((ring16 .silent [] 16 0 0 0 0).mode = .silent ∧ 16 ≤ (ring16 .silent [] 16 0 0 0 0).rd) ∧
    (1 ≤ (ring16 .checked [] 16 0 0 1 0).avail ∧ (ring16 .checked [] 16 0 0 1 0).cap = 16) ∧
    (Memory.wf (ring16 .checked [] 0 9 0 8 0).ring = true ∧ (ring16 .checked [] 0 9 0 8 0).avail + 8 ≤ 16 ∧
      16 < (ring16 .checked [] 0 9 0 8 0).wr + 8) := by decide

theorem witness_ParametersAndCommandsAreArguments :
    ∃ t, step { half16 with moves := [.command 0x20000004, .reset] } = .next t := ⟨_, rfl⟩

theorem witness_RunIsSequenceOfCommands : half16.WF ∧ half16.rsp = none := ⟨wf_half16, by decide⟩

theorem witness_OneResponsePerWord : ∃ t, performAll [0x20000005, 0x10000000] half16 = .next t := ⟨_, rfl⟩

/-- A word that counts and one that faults. -/
theorem witness_TotalAfterWord :
    (∃ t, performWord 0x50000004 half16 = .next t) ∧ ∃ t, performWord 0x20000005 half16 = .next t := ⟨⟨_, rfl⟩, _, rfl⟩

theorem witness_PositionAccounting :
    Config.legal { capLog2 := 4 } = true ∧
    ∃ t, performAll [0x400000FF, 0x20000005, 0x50000004] (State.resetTo { capLog2 := 4 } .checked) = .next t :=
  ⟨by decide, _, rfl⟩

end Sys2Proof.Tests
end

section
/-! Stops of the model: a `CAP_LOG2` outside rule R9 (spec/00_scope.md section 3) and the one-cell access outside the ring
of rule R13 (spec/00_scope.md section 4, log entry 10). -/

namespace Sys2Proof.Machine

variable {s : State}

theorem legal_eq_false_iff (c : Config) : c.legal = false ↔ c.capLog2 < 3 ∨ 15 < c.capLog2 := by
  simp only [Config.legal, Bool.and_eq_false_iff, decide_eq_false_iff_not, not_le]

/-- READ1 does not underflow: nothing is checked, or a bit is unread. -/
theorem read1Fault_eq_none_iff : read1Fault s = none ↔ s.mode = .silent ∨ 1 ≤ s.avail := by
  cases hm : s.mode with
  | silent => simp [read1Fault_silent hm]
  | checked => simp [read1Fault_checked hm, Nat.one_le_iff_ne_zero]

/-- WR8 does not overflow: nothing is checked, or a byte has room beside the unread bits. -/
theorem writeFault_eq_none_iff : writeFault s = none ↔ s.mode = .silent ∨ s.avail + 8 ≤ s.cap := by
  cases hm : s.mode with
  | silent => simp [writeFault_silent hm]
  | checked => simp [writeFault_checked hm]

/-- READ1 where its cell does not exist: the underflow, or the model's stop. -/
theorem exec_read1_of_ge (hr : s.cap ≤ s.rd) :
    exec .read1 s = performUnless (read1Fault s) s (.fault .ringIndexOutOfRange) := by
  simp only [exec, execRead1, memRead_of_ge hr]

/-- WR8 where one of its cells does not exist: the overflow, or the model's stop. -/
theorem exec_wr8_of_gt (hw : Memory.wf s.ring = true) (hc : s.cap < s.wr + 8) (v : Byte) :
    exec (.wr8 v) s = performUnless (writeFault s) s (.fault .ringIndexOutOfRange) := by
  simp only [exec, execWr8, writeBits_none hw v 7 hc]

/-- Settles O44: `Config.legal` is exactly rule R9's range, and outside it the step refuses. -/
theorem illegalInstanceRefused : Obligations.IllegalInstanceRefused := fun s h =>
  step_illegal ((legal_eq_false_iff s.cfg).mpr h)

/-- Settles O48: past its fault condition, each command reaches the cell that does not exist. -/
theorem cellBeyondCapacityStops : Obligations.CellBeyondCapacityStops := by
  refine ⟨fun s hf hr => ?_, fun s v hw hf hc => ?_⟩
  · rw [exec_read1_of_ge hr, read1Fault_eq_none_iff.mpr hf, performUnless_none]
  · rw [exec_wr8_of_gt hw hc, writeFault_eq_none_iff.mpr hf, performUnless_none]

end Sys2Proof.Machine
end

section
/-! The byte write as a function of the capacity, the ring, `WR` and the byte alone (spec/42_write.md rule R130, R131), and
everything a command can do, in every state. -/

namespace Sys2Proof.Machine

variable {s t : State} {i : Instr}

/-! ### the byte write on the ring alone -/

/-- The ring after the first `n` one-cell writes of WR8, or none where a cell does not exist. -/
def writtenRing (cap : Nat) (ring : Memory) (wr : Nat) (v : Byte) : Nat → Option Memory
  | 0 => some ring
  | k + 1 => (writtenRing cap ring wr v k).bind fun m =>
      if wr + k < cap then some (Memory.write m (wr + k) (byteBit v k)) else none

/-- The one-cell writes change the ring and nothing else. -/
theorem writeBits_eq (s : State) (v : Byte) : ∀ n,
    writeBits s v n = (writtenRing s.cap s.ring s.wr v n).map fun m => setRing m s
  | 0 => rfl
  | n + 1 => by
    rw [writeBits, writtenRing, writeBits_eq s v n]
    cases writtenRing s.cap s.ring s.wr v n with
    | none => rfl
    | some m =>
      by_cases hc : s.wr + n < s.cap
      · simp only [Option.map_some, Option.bind_some, hc, if_true]
        exact memWrite_of_lt (s := setRing m s) hc _
      · simp only [Option.map_some, Option.bind_some, hc, if_false]
        exact memWrite_of_ge (s := setRing m s) (Nat.not_lt.mp hc) _

/-- What a performed WR8 leaves, given the ring it has written. -/
@[simp] def afterWrite (m : Memory) (s : State) : State := respond .ok 0 (countWrite (advanceWrite (setRing m s)))

/-- WR8 in every state: its fault, the byte written, or the model's stop. -/
theorem exec_wr8_writtenRing (v : Byte) (s : State) :
    exec (.wr8 v) s = performUnless (writeFault s) s
      ((writtenRing s.cap s.ring s.wr v 8).elim (.fault .ringIndexOutOfRange) fun m => .next (afterWrite m s)) := by
  simp only [exec, execWr8, writeBits_eq]
  cases writtenRing s.cap s.ring s.wr v 8 <;> rfl

/-- Where the cells exist the written ring is the one of `WroteByte`. -/
theorem exists_writtenRing (hw : Memory.wf s.ring = true) (hc : s.wr + 8 ≤ s.cap) (v : Byte) :
    ∃ m, writtenRing s.cap s.ring s.wr v 8 = some m ∧ WroteByte s v m := by
  obtain ⟨m, he, hm, hb, hr⟩ := writeBits_spec hw v 8 hc
  rw [writeBits_eq, Option.map_eq_some_iff] at he
  obtain ⟨m', hm', he⟩ := he
  obtain rfl : m' = m := congrArg (fun u : State => u.ring) he
  exact ⟨m', hm', hm, hb, hr⟩

theorem wroteByte_of_writtenRing {v : Byte} {m : Memory} (hw : Memory.wf s.ring = true) (hc : s.wr + 8 ≤ s.cap)
    (h : writtenRing s.cap s.ring s.wr v 8 = some m) : WroteByte s v m := by
  obtain ⟨m', hm', hb⟩ := exists_writtenRing hw hc v
  obtain rfl : m' = m := Option.some.inj (hm'.symm.trans h)
  exact hb

/-! ### what a command does -/

/-- The bit count a read command stands for, rule R112, R114. -/
def ReadsBy (i : Instr) (n : Nat) : Prop := (∃ a : Arg, i = .readn a ∧ n = a.toNat) ∨ (i = .read1 ∧ n = 1)

/-- What a performed read of `n` bits leaves, given the data it answers. -/
@[simp] def afterRead (n : Nat) (d : Word) (s : State) : State := respond .ok d (countRead n (advanceRead n s))

/-- What a performed rewind by `nb` bits leaves. -/
@[simp] def afterRewind (nb : Nat) (s : State) : State := respond .ok 0 (countRewind nb (moveBack nb s))

theorem ReadsBy.not_pos_or_wr8 {n : Nat} (h : ReadsBy i n) : ¬(i = .pos ∨ ∃ v, i = .wr8 v) := by
  obtain ⟨a, rfl, -⟩ | ⟨rfl, -⟩ := h <;> simp

theorem RewindsBy.not_pos_or_wr8 {nb : Nat} (h : RewindsBy i nb) : ¬(i = .pos ∨ ∃ v, i = .wr8 v) := by
  obtain ⟨a, rfl, -⟩ | ⟨a, rfl, -⟩ := h <;> simp

theorem ReadsBy.ne_pos {n : Nat} (h : ReadsBy i n) : i ≠ .pos := fun hi => h.not_pos_or_wr8 (.inl hi)

theorem RewindsBy.ne_pos {nb : Nat} (h : RewindsBy i nb) : i ≠ .pos := fun hi => h.not_pos_or_wr8 (.inl hi)

theorem exec_rewindsBy {nb : Nat} (h : RewindsBy i nb) (s : State) : exec i s = rewind nb s := by
  obtain ⟨n, rfl, rfl⟩ | ⟨n, rfl, rfl⟩ := h <;> rfl

/-- One way for a command to end well: POS, a read within the unread bits, a rewind, a byte written. -/
inductive Performs (s : State) : Instr → State → Prop
  | pos : Performs s .pos (respond .ok s.tot s)
  | read {i : Instr} {n : Nat} (d : Word) (hi : ReadsBy i n) (hn : s.mode = .checked → n ≤ s.avail) :
      Performs s i (afterRead n d s)
  | rewind {i : Instr} {nb : Nat} (hi : RewindsBy i nb) (hn : rewindFault s nb = none) : Performs s i (afterRewind nb s)
  | write {v : Byte} {m : Memory} (hf : writeFault s = none) (hm : writtenRing s.cap s.ring s.wr v 8 = some m) :
      Performs s (.wr8 v) (afterWrite m s)

/-- Everything a command can do, in every state: the fault entry, never of POS, or one of the ways to end well. -/
theorem exec_cases (h : exec i s = .next t) : (i ≠ .pos ∧ ∃ c, t = faultEntry c s) ∨ Performs s i t := by
  have hrewind : ∀ {nb}, RewindsBy i nb → (i ≠ .pos ∧ ∃ c, t = faultEntry c s) ∨ Performs s i t := by
    intro nb hi
    obtain ⟨c, -, ht⟩ | ⟨hn, rfl⟩ := rewind_cases ((exec_rewindsBy hi s).symm.trans h)
    · exact .inl ⟨hi.ne_pos, c, ht⟩
    · exact .inr (.rewind hi hn)
  cases i with
  | pos =>
    obtain rfl : respond .ok s.tot s = t := by injection h
    exact .inr .pos
  | readn n =>
    obtain ⟨c, -, ht⟩ | ⟨hn, rfl⟩ := exec_readn_cases h
    · exact .inl ⟨by simp, c, ht⟩
    · exact .inr (.read _ (.inl ⟨n, rfl, rfl⟩) fun hm => (readFault_none_checked hm hn).2.2)
  | read1 =>
    obtain ⟨c, -, ht⟩ | ⟨hr, hn⟩ := exec_read1_next h
    · exact .inl ⟨by simp, c, ht⟩
    · obtain ⟨c, -, ht⟩ | ⟨-, rfl⟩ := exec_read1_cases hr h
      · exact .inl ⟨by simp, c, ht⟩
      · exact .inr (.read _ (.inr ⟨rfl, rfl⟩) fun hm => read1Fault_none_checked hm hn)
  | wr8 v =>
    rw [exec_wr8_writtenRing] at h
    obtain ⟨c, -, ht⟩ | ⟨hf, ht⟩ := performUnless_cases h
    · exact .inl ⟨by simp, c, by injection ht⟩
    · cases hm : writtenRing s.cap s.ring s.wr v 8 with
      | none => simp [hm] at ht
      | some m =>
        obtain rfl : t = afterWrite m s := by simpa [hm] using ht
        exact .inr (.write hf hm)
  | rewbits n => exact hrewind (.inl ⟨n, rfl, rfl⟩)
  | rewbytes n => exact hrewind (.inr ⟨n, rfl, rfl⟩)

end Sys2Proof.Machine
end

section
/-! The invariant of spec/10_state.md rule R37 (`State.WF`): what it is blind to, that every command, every word and every
act of the host keeps it, and that nothing stops from it. -/

namespace Sys2Proof.Machine

variable {s t : State} {i : Instr}

/-- The invariant says nothing of `TOT`, the response port and the host beside the BRB. -/
theorem State.WF.withRest (h : s.WF) (tot : Word) (rsp : Option Response) (strap : CheckMode) (moves : List HostMove)
    (taken : List Response) :
    State.WF { s with tot := tot, rsp := rsp, strap := strap, moves := moves, taken := taken } := { h with }

theorem State.WF.setMoves (h : s.WF) (ms : List HostMove) : (setMoves ms s).WF := h.withRest _ _ _ _ _

theorem State.WF.respond (h : s.WF) (st : Status) (d : Word) : (respond st d s).WF := h.withRest _ _ _ _ _

theorem State.WF.takeResponse (h : s.WF) : (takeResponse s).WF := h.withRest _ _ _ _ _

/-- The codes of the causes are those `CAUSE` may hold, rule R31. -/
theorem Cause.code_range (c : Cause) :
    c.status.code = 1 ∨ c.status.code = 2 ∨ c.status.code = 3 ∨ c.status.code = 4 := by
  cases c <;> simp [Cause.status, Status.code]

theorem State.WF.faultEntry (h : s.WF) (c : Cause) : (faultEntry c s).WF :=
  { h with
    noFault := fun hf => by simp at hf
    fault := fun _ => c.code_range }

/-- The reset state, rule R39. -/
theorem wf_resetTo {c : Config} (hc : c.legal = true) (m : CheckMode) : (State.resetTo c m).WF where
  legal := hc
  ringWf := rfl
  ringBelow := rfl
  rd_lt := cap_pos (State.resetTo c m)
  wr_le := (cap_of_legal (s := State.resetTo c m) hc).1
  wr_mod := rfl
  notBusy := rfl
  noFault := fun _ => rfl
  fault := fun hf => by cases hf
  silent := fun _ => ⟨rfl, rfl⟩
  checked := fun _ => ⟨(Nat.zero_mod _).symm, Nat.zero_le _⟩

/-! ### the commands -/

/-- Another read position in SILENT mode, where the counts stay 0. -/
theorem State.WF.moveSilent (h : s.WF) (hm : s.mode = .silent) {rd : Nat} (hrd : rd < s.cap) :
    State.WF { s with rd := rd } :=
  { h with rd_lt := hrd, checked := fun hc => by cases hm.symm.trans hc }

/-- Another read position in CHECKED mode, with counts that keep rule R38's items 1 and 2. -/
theorem State.WF.moveChecked (h : s.WF) (hm : s.mode = .checked) {rd avail hist : Nat} (hrd : rd < s.cap)
    (hpos : (rd + avail) % s.cap = (s.rd + s.avail) % s.cap) (hsum : avail + hist ≤ s.cap) :
    State.WF { s with rd := rd, avail := avail, hist := hist } :=
  { h with
    rd_lt := hrd
    silent := fun hs => by cases hm.symm.trans hs
    checked := fun _ => ⟨(h.checked hm).1.trans hpos.symm, hsum⟩ }

/-- A read moves `RD` on and takes the same number off `AVAIL`, so the sum that gives `WR` stays. -/
theorem State.WF.afterRead (h : s.WF) {n : Nat} (hn : s.mode = .checked → n ≤ s.avail) (d : Word) :
    (afterRead n d s).WF := by
  have hlt := ringIdx_lt s s.rd n
  cases hm : s.mode with
  | silent =>
    rw [Machine.afterRead, countRead_silent (advanceRead n s) n hm]
    exact (h.moveSilent hm hlt).withRest _ _ _ _ _
  | checked =>
    rw [Machine.afterRead, countRead_checked (advanceRead n s) n hm]
    obtain ⟨-, hsum⟩ := h.checked hm
    have hn := hn hm
    have hpos : (ringIdx s s.rd n + (s.avail - n)) % s.cap = (s.rd + s.avail) % s.cap := by
      rw [ringIdx_eq, Nat.mod_add_mod, show s.rd + n + (s.avail - n) = s.rd + s.avail by omega]
    exact (h.moveChecked hm hlt hpos (hist := s.hist + n) (by omega)).withRest _ _ _ _ _

/-- A rewind moves `RD` back and adds the same number to `AVAIL`. -/
theorem State.WF.afterRewind (h : s.WF) {nb : Nat} (hn : rewindFault s nb = none) : (afterRewind nb s).WF := by
  have hle := rewindFault_none_le hn
  have hlt := rewoundCursor_lt h.rd_lt hle
  cases hm : s.mode with
  | silent =>
    rw [Machine.afterRewind, countRewind_silent (moveBack nb s) nb hm]
    exact (h.moveSilent hm hlt).withRest _ _ _ _ _
  | checked =>
    rw [Machine.afterRewind, countRewind_checked (moveBack nb s) nb hm]
    obtain ⟨-, hsum⟩ := h.checked hm
    obtain ⟨-, hhist⟩ := rewindFault_none_checked hm hn
    have hpos : (rewoundCursor s nb + (s.avail + nb)) % s.cap = (s.rd + s.avail) % s.cap := by
      rw [rewoundCursor_eq h.rd_lt hle, Nat.mod_add_mod,
        show s.rd + 2 * s.cap - nb + (s.avail + nb) = s.rd + s.avail + 2 * s.cap by omega, Nat.add_mul_mod_self_right]
    exact (h.moveChecked hm hlt hpos (hist := s.hist - nb) (by omega)).withRest _ _ _ _ _

/-- A byte write moves `WR` on by 8 and adds 8 to `AVAIL`; the history gives way to it. -/
theorem State.WF.afterWrite (h : s.WF) {v : Byte} {m : Memory} (hf : writeFault s = none) (hb : WroteByte s v m) :
    (afterWrite m s).WF := by
  obtain ⟨-, hcap8, -⟩ := cap_of_legal h.legal
  obtain ⟨hmod, hle⟩ := nextWriteCursor_room hcap8 h.wr_mod h.wr_le
  refine State.WF.respond ?_ .ok 0
  cases hm : s.mode with
  | silent =>
    rw [countWrite_silent (advanceWrite (setRing m s)) hm]
    exact { h with
      ringWf := hb.wf, ringBelow := hb.below h.ringBelow, wr_le := hle, wr_mod := hmod
      checked := fun hc => by cases hm.symm.trans hc }
  | checked =>
    rw [countWrite_checked (advanceWrite (setRing m s)) hm]
    obtain ⟨hwr, hsum⟩ := h.checked hm
    have hroom := writeFault_none_checked hm hf
    have hnext : nextWriteCursor s.cap s.wr = (s.rd + (s.avail + 8)) % s.cap := by
      rw [nextWriteCursor_eq_mod h.wr_le, hwr, Nat.mod_add_mod, Nat.add_assoc]
    have hsum' : s.avail + 8 + min s.hist (s.cap - (s.avail + 8)) ≤ s.cap := by omega
    exact { h with
      ringWf := hb.wf, ringBelow := hb.below h.ringBelow, wr_le := hle, wr_mod := hmod
      silent := fun hs => by cases hm.symm.trans hs
      checked := fun _ => ⟨hnext, hsum'⟩ }

theorem State.WF.of_exec (h : s.WF) (he : exec i s = .next t) : t.WF := by
  obtain ⟨-, c, rfl⟩ | hp := exec_cases he
  · exact h.faultEntry c
  · cases hp with
    | pos => exact h.respond _ _
    | read d _ hn => exact h.afterRead hn d
    | rewind _ hn => exact h.afterRewind hn
    | write hf hm => exact h.afterWrite hf (wroteByte_of_writtenRing h.ringWf h.wr_le hm)

theorem State.WF.of_performWord {w : Word} (h : s.WF) (he : performWord w s = .next t) : t.WF := by
  obtain ⟨-, rfl⟩ | ⟨-, -, rfl⟩ | ⟨-, i, -, he⟩ := performWord_cases he
  · exact h.respond _ _
  · exact h.faultEntry _
  · exact h.of_exec he

/-! ### progress -/

theorem performUnless_next (c : Option Cause) (s u : State) : ∃ t, performUnless c s (.next u) = .next t := by
  cases c with
  | none => exact ⟨u, rfl⟩
  | some c => exact ⟨faultEntry c s, rfl⟩

/-- The cells a command of a well-formed state touches exist, so it answers. -/
theorem State.WF.exec_next (h : s.WF) (i : Instr) : ∃ t, exec i s = .next t := by
  cases i with
  | pos => exact ⟨_, exec_pos_eq s⟩
  | readn n => exact performUnless_next _ _ _
  | read1 =>
    rw [exec, execRead1, memRead_of_lt h.rd_lt]
    exact performUnless_next _ _ _
  | wr8 v =>
    obtain ⟨m, -, he⟩ := exec_wr8_eq h.ringWf h.wr_le v
    rw [he]
    exact performUnless_next _ _ _
  | rewbits n => exact performUnless_next _ _ _
  | rewbytes n => exact performUnless_next _ _ _

theorem State.WF.performWord_next (h : s.WF) (w : Word) : ∃ t, performWord w s = .next t := by
  rw [performWord]
  split_ifs
  · exact ⟨_, rfl⟩
  · cases decode w with
    | error e => exact ⟨_, rfl⟩
    | ok i => exact h.exec_next i

/-- Settles O24: every field of the invariant holds of the reset registers. -/
theorem resetWellFormed : Obligations.ResetWellFormed :=
  ⟨fun _ m hc => wf_resetTo hc m, wf_resetTo (by decide) .checked⟩

/-- Settles O23: a step is one of the acts of `step_cases`, and each keeps the invariant. -/
theorem stepKeepsWellFormed : Obligations.StepKeepsWellFormed := by
  intro s t h hs
  obtain ⟨hl, ⟨-, rfl⟩ | ⟨w, rest, -, hw⟩ | ⟨rest, -, rfl⟩ | ⟨m, rest, -, rfl⟩ | ⟨rest, -, rfl⟩⟩ := step_cases hs
  · rwa [Block.idle_of_not_busy _ h.notBusy]
  · obtain ⟨hb, -⟩ | ⟨-, -, rfl⟩ | ⟨-, -, hp⟩ := hw
    · exact absurd (hb.symm.trans h.notBusy) (by decide)
    · exact h.takeResponse
    · exact (h.setMoves rest).of_performWord hp
  · exact (h.setMoves rest).takeResponse
  · exact h.withRest _ _ _ _ _
  · exact (wf_resetTo hl s.strap).setMoves rest

/-- Settles O25: the parameters are legal, so the step is what the next act gives, and a word performed answers. -/
theorem wellFormedStepAnswers : Obligations.WellFormedStepAnswers := by
  intro s h
  cases hm : s.moves with
  | nil => exact ⟨_, step_idle h.legal hm⟩
  | cons a rest =>
    cases a with
    | command w =>
      cases hr : s.rsp with
      | some r => exact ⟨_, step_command_waiting h.legal hm h.notBusy hr⟩
      | none =>
        rw [step_command_ready h.legal hm h.notBusy hr]
        exact (h.setMoves rest).performWord_next w
    | takeResponse => exact ⟨_, step_takeResponse h.legal hm⟩
    | driveCheckMode m => exact ⟨_, step_driveCheckMode h.legal hm⟩
    | reset => exact ⟨_, step_reset h.legal hm⟩

end Sys2Proof.Machine
end

section
/-! Rule R38 of spec/10_state.md in one piece: the cells that hold the retained and the unread bits are one stretch of the
stream written, each position at its own cell. A read or a rewind leaves the stretch where it is, a write lengthens it. -/

namespace Sys2Proof.Machine

variable {h : Session} {s t : State} {i : Instr}

/-- The cell of a position of the stream, counted from the read cursor. -/
def streamIdx (h : Session) (s : State) (p : Nat) : Nat := (s.rd + s.cap + p - h.consumed) % s.cap

/-- Every retained or unread position has its bit in its cell. -/
def HoldsStream (h : Session) (s : State) : Prop :=
  ∀ p, h.consumed ≤ p + s.hist → p < h.written.length → s.cell (streamIdx h s p) = h.written.getD p 0

theorem streamIdx_unread (h : Session) (s : State) (k : Nat) : streamIdx h s (h.consumed + k) = ringIdx s s.rd k := by
  rw [streamIdx, ringIdx_eq, show s.rd + s.cap + (h.consumed + k) - h.consumed = s.rd + k + s.cap by omega,
    Nat.add_mod_right]

theorem streamIdx_retained (s : State) {k : Nat} (hk : k ≤ h.consumed) :
    streamIdx h s (h.consumed - k) = (s.rd + s.cap - k) % s.cap := by
  rw [streamIdx]
  congr 1
  omega

/-- Items 3 and 4 are the two halves of the stretch. -/
theorem Tracks.holdsStream (ht : Tracks h s) : HoldsStream h s := by
  intro p hlo hhi
  have hlen := ht.consumed
  by_cases hp : h.consumed ≤ p
  · obtain ⟨k, rfl⟩ := Nat.exists_eq_add_of_le hp
    rw [streamIdx_unread]
    exact ht.unread k (by omega)
  · obtain ⟨k, hk, rfl⟩ : ∃ k ≤ h.consumed, p = h.consumed - k := ⟨h.consumed - p, by omega, by omega⟩
    rw [streamIdx_retained s hk]
    exact ht.retained k (by omega) (by omega)

/-- Rule R38 from the stretch and the counts. -/
theorem Tracks.of_holdsStream (hw : s.WF) (hm : s.mode = .checked) (hc : h.consumed + s.avail = h.written.length)
    (hh : s.hist ≤ h.consumed) (hf : s.cap - s.avail - s.hist = s.cap - h.written.length) (hs : HoldsStream h s) :
    Tracks h s where
  wf := hw
  mode := hm
  consumed := hc
  history := hh
  unread := fun k hk => by
    rw [← streamIdx_unread]
    exact hs _ (by omega) (by omega)
  retained := fun k h1 hk => by
    rw [← streamIdx_retained s (by omega : k ≤ h.consumed)]
    exact hs _ (by omega) (by omega)
  fresh := hf

/-- A fault or a refusal writes nothing that rule R38 speaks of. -/
theorem Tracks.faultEntry (ht : Tracks h s) (c : Cause) : Tracks h (faultEntry c s) :=
  { ht with wf := ht.wf.faultEntry c }

theorem Tracks.respond (ht : Tracks h s) (st : Status) (d : Word) : Tracks h (respond st d s) :=
  { ht with wf := ht.wf.respond st d }

/-! ### reads and rewinds -/

/-- The session with another position in the same stream. -/
def Session.movedTo (h : Session) (consumed : Nat) : Session := { h with consumed := consumed }

/-- Where the read cursor moves by as much as the position, every position keeps its cell. -/
theorem streamIdx_movedTo {h : Session} {c p : Nat} (hcfg : t.cfg = s.cfg)
    (hrd : t.rd + h.consumed ≡ s.rd + c [MOD s.cap]) (hs : h.consumed ≤ p + s.cap) (ht : c ≤ p + s.cap) :
    streamIdx (h.movedTo c) t p = streamIdx h s p := by
  have hcap : t.cap = s.cap := congrArg Config.cap hcfg
  have hsum : t.rd + s.cap + p - c + (c + h.consumed) ≡ s.rd + s.cap + p - h.consumed + (c + h.consumed) [MOD s.cap] := by
    rw [show t.rd + s.cap + p - c + (c + h.consumed) = t.rd + h.consumed + (s.cap + p) by omega,
      show s.rd + s.cap + p - h.consumed + (c + h.consumed) = s.rd + c + (s.cap + p) by omega]
    exact hrd.add_right _
  rw [streamIdx, streamIdx, hcap]
  exact hsum.add_right_cancel' _

/-- A move of the read position, forward or back within the retained and unread bits: `HIST` and `AVAIL` keep their sum, so
the stretch is the same. -/
theorem Tracks.movedTo (ht : Tracks h s) {c : Nat} (hw : t.WF) (hm : t.mode = s.mode) (hcfg : t.cfg = s.cfg)
    (hring : t.ring = s.ring) (hrd : t.rd + h.consumed ≡ s.rd + c [MOD s.cap])
    (havail : c + t.avail = h.consumed + s.avail) (hhist : h.consumed + t.hist = c + s.hist) :
    Tracks (h.movedTo c) t := by
  have hcap : t.cap = s.cap := congrArg Config.cap hcfg
  have hlen := ht.consumed
  have hback := ht.history
  have hfresh := ht.fresh
  obtain ⟨-, hsum⟩ := ht.wf.checked ht.mode
  obtain ⟨-, hsum'⟩ := hw.checked (hm.trans ht.mode)
  refine Tracks.of_holdsStream hw (hm.trans ht.mode) (havail.trans hlen) ?_ ?_ fun p hlo hhi => ?_
  · show t.hist ≤ c
    omega
  · show t.cap - t.avail - t.hist = t.cap - h.written.length
    omega
  · have hlo : c ≤ p + t.hist := hlo
    rw [streamIdx_movedTo hcfg hrd (by omega) (by omega), State.cell, hring]
    exact ht.holdsStream p (by omega) hhi

theorem ReadsBy.after {n : Nat} (hi : ReadsBy i n) (h : Session) : h.after i = h.movedTo (h.consumed + n) := by
  obtain ⟨a, rfl, rfl⟩ | ⟨rfl, rfl⟩ := hi <;> rfl

theorem RewindsBy.after {nb : Nat} (hi : RewindsBy i nb) (h : Session) : h.after i = h.movedTo (h.consumed - nb) := by
  obtain ⟨a, rfl, rfl⟩ | ⟨a, rfl, rfl⟩ := hi <;> rfl

theorem Tracks.afterRead (ht : Tracks h s) {n : Nat} (hn : s.mode = .checked → n ≤ s.avail) (d : Word) :
    Tracks (h.movedTo (h.consumed + n)) (afterRead n d s) := by
  have hm := ht.mode
  have hle := hn hm
  have havail : (Machine.afterRead n d s).avail = s.avail - n := by simp [hm]
  have hhist : (Machine.afterRead n d s).hist = s.hist + n := by simp [hm]
  have hrd : (Machine.afterRead n d s).rd + h.consumed ≡ s.rd + (h.consumed + n) [MOD s.cap] := by
    rw [show (Machine.afterRead n d s).rd = (s.rd + n) % s.cap by simp [ringIdx_eq],
      show s.rd + (h.consumed + n) = s.rd + n + h.consumed by omega]
    exact (Nat.mod_modEq _ _).add_right _
  exact ht.movedTo (ht.wf.afterRead hn d) (by simp) (by simp) (by simp) hrd (by omega) (by omega)

theorem Tracks.afterRewind (ht : Tracks h s) {nb : Nat} (hn : rewindFault s nb = none) :
    Tracks (h.movedTo (h.consumed - nb)) (afterRewind nb s) := by
  have hm := ht.mode
  have hback := ht.history
  have hle := rewindFault_none_le hn
  obtain ⟨-, hle'⟩ := rewindFault_none_checked hm hn
  have havail : (Machine.afterRewind nb s).avail = s.avail + nb := by simp [hm]
  have hhist : (Machine.afterRewind nb s).hist = s.hist - nb := by simp [hm]
  have hrd : (Machine.afterRewind nb s).rd + h.consumed ≡ s.rd + (h.consumed - nb) [MOD s.cap] := by
    rw [show (Machine.afterRewind nb s).rd = (s.rd + 2 * s.cap - nb) % s.cap by
      simp [rewoundCursor_eq ht.wf.rd_lt hle]]
    refine ((Nat.mod_modEq _ _).add_right _).trans ?_
    rw [show s.rd + 2 * s.cap - nb + h.consumed = s.rd + (h.consumed - nb) + 2 * s.cap by omega]
    exact Nat.add_mul_mod_self_right _ _ _
  exact ht.movedTo (ht.wf.afterRewind hn) (by simp) (by simp) (by simp) hrd (by omega) (by omega)

/-! ### the byte write -/

theorem length_byteBits (v : Byte) : (byteBits v).length = 8 := by simp [byteBits]

theorem getD_byteBits (v : Byte) {k : Nat} (hk : k < 8) : (byteBits v).getD k 0 = byteBit v k := by
  rw [List.getD_eq_getElem _ _ (by rwa [length_byteBits])]
  simp [byteBits]

/-- The eight cells from `WR` on are those of the next eight positions of the stream. -/
theorem Tracks.streamIdx_written (ht : Tracks h s) {k : Nat} (hk : k < 8) :
    streamIdx h s (h.written.length + k) = s.wr + k := by
  obtain ⟨hwr, -⟩ := ht.wf.checked ht.mode
  have hle := ht.wf.wr_le
  rw [← ht.consumed, Nat.add_assoc, streamIdx_unread, ringIdx_eq, ← Nat.add_assoc, Nat.add_mod, ← hwr,
    Nat.mod_eq_of_lt (by omega : k < s.cap), Nat.mod_eq_of_lt (by omega)]

/-- Positions less than `CAP` apart have different cells. -/
theorem streamIdx_ne {p q : Nat} (hp : h.consumed ≤ p + s.cap) (hpq : p < q) (hq : q < p + s.cap) :
    streamIdx h s p ≠ streamIdx h s q := by
  intro he
  have hd : s.cap ∣ s.rd + s.cap + q - h.consumed - (s.rd + s.cap + p - h.consumed) :=
    (Nat.modEq_iff_dvd' (by omega)).mp he
  have := Nat.le_of_dvd (by omega) hd
  omega

/-- They hold none of the `CAP - 8` positions before those. -/
theorem Tracks.streamIdx_not_written (ht : Tracks h s) {p : Nat} (hlo : h.written.length + 8 ≤ p + s.cap)
    (hp : p < h.written.length) : ¬(s.wr ≤ streamIdx h s p ∧ streamIdx h s p < s.wr + 8) := by
  rintro ⟨h1, h2⟩
  have hlen := ht.consumed
  have hk := ht.streamIdx_written (k := streamIdx h s p - s.wr) (by omega)
  exact streamIdx_ne (s := s) (by omega) (by omega) (by omega)
    (show streamIdx h s p = streamIdx h s (h.written.length + (streamIdx h s p - s.wr)) by omega)

theorem length_after_wr8 (h : Session) (v : Byte) : (h.after (.wr8 v)).written.length = h.written.length + 8 := by
  simp [Session.after, length_byteBits]

theorem streamIdx_afterWrite (h : Session) (s : State) (v : Byte) (m : Memory) (p : Nat) :
    streamIdx (h.after (.wr8 v)) (afterWrite m s) p = streamIdx h s p := by
  simp [streamIdx, Session.after]

/-- The stretch after a byte write: the positions still retained or unread keep their bits, the next eight hold the byte. -/
theorem Tracks.holdsStream_afterWrite (ht : Tracks h s) {v : Byte} {m : Memory} (hroom : s.avail + 8 ≤ s.cap)
    (hb : WroteByte s v m) : HoldsStream (h.after (.wr8 v)) (afterWrite m s) := by
  intro p hlo hhi
  have hlo : h.consumed ≤ p + (Machine.afterWrite m s).hist := hlo
  rw [show (Machine.afterWrite m s).hist = min s.hist (s.cap - (s.avail + 8)) by simp [ht.mode]] at hlo
  rw [length_after_wr8] at hhi
  have hlen := ht.consumed
  have hcell : ∀ a, (Machine.afterWrite m s).cell a = Memory.read m a := fun a => by simp [State.cell]
  rw [streamIdx_afterWrite, hcell, hb.read]
  by_cases hp : p < h.written.length
  · rw [if_neg (ht.streamIdx_not_written (by omega) hp), Session.after, List.getD_append _ _ _ _ hp]
    exact ht.holdsStream p (by omega) hp
  · obtain ⟨k, rfl⟩ := Nat.exists_eq_add_of_le (Nat.not_lt.mp hp)
    rw [ht.streamIdx_written (by omega), if_pos (by omega), Session.after, List.getD_append_right _ _ _ _ (by omega),
      Nat.add_sub_cancel_left, Nat.add_sub_cancel_left, getD_byteBits v (by omega)]

/-- A byte written with room beside the unread bits lengthens the stretch by its eight bits; the positions whose cells it
takes are no longer retained. -/
theorem Tracks.afterWrite (ht : Tracks h s) {v : Byte} {m : Memory} (hf : writeFault s = none) (hb : WroteByte s v m) :
    Tracks (h.after (.wr8 v)) (afterWrite m s) := by
  have hm := ht.mode
  have hlen := ht.consumed
  have hback := ht.history
  have hfresh := ht.fresh
  have hroom := writeFault_none_checked hm hf
  have havail : (Machine.afterWrite m s).avail = s.avail + 8 := by simp [hm]
  have hhist : (Machine.afterWrite m s).hist = min s.hist (s.cap - (s.avail + 8)) := by simp [hm]
  have hcap : (Machine.afterWrite m s).cap = s.cap := by simp
  refine Tracks.of_holdsStream (ht.wf.afterWrite hf hb) (by simp [hm]) ?_ ?_ ?_ (ht.holdsStream_afterWrite hroom hb)
  · rw [havail, length_after_wr8, ← hlen]
    rfl
  · exact hhist.trans_le ((Nat.min_le_left _ _).trans hback)
  · rw [hcap, havail, hhist, length_after_wr8]
    omega

/-! ### every command word -/

theorem tracks_resetTo {c : Config} (hc : c.legal = true) : Tracks Session.start (State.resetTo c .checked) where
  wf := wf_resetTo hc .checked
  mode := rfl
  consumed := rfl
  history := Nat.le_refl 0
  unread := fun _ hk => absurd hk (Nat.not_lt_zero _)
  retained := fun _ h1 hk => absurd (h1.trans hk) (Nat.not_succ_le_zero 0)
  fresh := rfl

theorem Tracks.performs (ht : Tracks h s) (hp : Performs s i t) : Tracks (h.after i) t := by
  cases hp with
  | pos => exact ht.respond _ _
  | read d hi hn => exact hi.after h ▸ ht.afterRead hn d
  | rewind hi hn => exact hi.after h ▸ ht.afterRewind hn
  | write hf hm => exact ht.afterWrite hf (wroteByte_of_writtenRing ht.wf.ringWf ht.wf.wr_le hm)

theorem Performs.rsp_ok (hp : Performs s i t) : ∃ d, t.rsp = some { status := .ok, data := d } := by
  cases hp <;> exact ⟨_, rfl⟩

theorem Cause.status_ne_ok (c : Cause) : c.status ≠ .ok := by cases c <;> decide

/-- Settles O21: a word that is performed moves or lengthens the stretch of the stream the ring holds; a fault and a refusal
leave it. -/
theorem checkedSessionTracksHistory : Obligations.CheckedSessionTracksHistory := by
  refine ⟨fun c hc => tracks_resetTo hc, fun h s t w ht hw => ?_⟩
  have hfault : ∀ c, t = faultEntry c s → ∃ st, st ≠ .ok ∧ t.rsp = some { status := st, data := 0 } ∧ Tracks h t := by
    rintro c rfl
    exact ⟨c.status, c.status_ne_ok, rfl, ht.faultEntry c⟩
  obtain ⟨-, rfl⟩ | ⟨-, -, he⟩ | ⟨-, i, hd, he⟩ := performWord_cases hw
  · exact .inr ⟨.halted, by decide, rfl, ht.respond _ _⟩
  · exact .inr (hfault _ he)
  · obtain ⟨-, c, he⟩ | hp := exec_cases he
    · exact .inr (hfault c he)
    · obtain ⟨d, hr⟩ := hp.rsp_ok
      exact .inl ⟨d, i, hr, hd, ht.performs hp⟩

end Sys2Proof.Machine
end

section
/-! What each command leaves unchanged (spec/10_state.md rule R21, R24 to R32), and what it does not depend on: the other
cursor (rule R27), the counts in SILENT mode (rule R29, R30), and everything beside the BRB (rule R40). -/

namespace Sys2Proof.Machine

variable {s t : State} {i : Instr}

/-! ### frames -/

/-- No command writes `MODE`, `BUSY`, the `check_mode` input, the parameters or what stands on the host's side. -/
theorem exec_keeps_surroundings (h : exec i s = .next t) :
    t.mode = s.mode ∧ t.busy = s.busy ∧ t.strap = s.strap ∧ t.cfg = s.cfg ∧ t.moves = s.moves ∧ t.taken = s.taken := by
  obtain ⟨-, c, rfl⟩ | hp := exec_cases h
  · simp
  · cases hp <;> simp

/-- Only WR8 writes the ring and the write cursor. -/
theorem exec_keeps_ring (hi : ∀ v, i ≠ .wr8 v) (h : exec i s = .next t) : t.wr = s.wr ∧ ∀ a, t.cell a = s.cell a := by
  obtain ⟨-, c, rfl⟩ | hp := exec_cases h
  · simp
  · cases hp with
    | write => exact absurd rfl (hi _)
    | pos => simp
    | read => simp
    | rewind => simp

/-- POS and WR8 do not move the read position. -/
theorem exec_keeps_position (hi : i = .pos ∨ ∃ v, i = .wr8 v) (h : exec i s = .next t) : t.rd = s.rd ∧ t.tot = s.tot := by
  obtain ⟨-, c, rfl⟩ | hp := exec_cases h
  · simp
  · cases hp with
    | pos => simp
    | write => simp
    | read d hr => exact absurd hi hr.not_pos_or_wr8
    | rewind hr => exact absurd hi hr.not_pos_or_wr8

/-- POS in either mode and every command in SILENT mode leave the counts alone. -/
theorem exec_keeps_counts (hi : i = .pos ∨ s.mode = .silent) (h : exec i s = .next t) :
    t.avail = s.avail ∧ t.hist = s.hist := by
  obtain ⟨-, c, rfl⟩ | hp := exec_cases h
  · simp
  · cases hp with
    | pos => simp
    | read d hr => simp [hi.resolve_left hr.ne_pos]
    | rewind hr => simp [hi.resolve_left hr.ne_pos]
    | write => simp [hi.resolve_left Instr.noConfusion]

theorem Performs.keeps_fault (hp : Performs s i t) : t.flt = s.flt ∧ t.cause = s.cause := by cases hp <;> simp

/-- Settles O36: the frames above, and a fault is neither POS's nor an `OK`. -/
theorem commandsWriteOnlyTheirRegisters : Obligations.CommandsWriteOnlyTheirRegisters := by
  refine fun i s t h => ⟨exec_keeps_surroundings h, fun hi => exec_keeps_ring hi h, fun hi => exec_keeps_position hi h,
    fun hi => exec_keeps_counts hi h, fun hi => ?_, fun ⟨d, hr⟩ => ?_⟩
  · obtain ⟨hne, -⟩ | hp := exec_cases h
    · exact absurd hi hne
    · exact hp.keeps_fault
  · obtain ⟨-, c, rfl⟩ | hp := exec_cases h
    · simp [c.status_ne_ok] at hr
    · exact hp.keeps_fault

/-! ### independence -/

theorem performUnless_onNext {f : State → State} (c : Option Cause) (p : Host.Outcome State Fault Refusal)
    (hf : ∀ c, faultEntry c (f s) = f (faultEntry c s)) :
    performUnless c (f s) (onNext f p) = onNext f (performUnless c s p) := by
  cases c with
  | none => rfl
  | some c => exact congrArg _ (hf c)

/-- An update of registers that POS, the reads and the rewinds neither read nor write: it leaves what they read, and each of
their parts carries it through. -/
structure UnseenByReads (f : State → State) (s : State) : Prop where
  cfg         : (f s).cfg = s.cfg
  ring        : (f s).ring = s.ring
  rd          : (f s).rd = s.rd
  tot         : (f s).tot = s.tot
  readFault   : ∀ n, readFault (f s) n = readFault s n
  read1Fault  : read1Fault (f s) = read1Fault s
  rewindFault : ∀ nb, rewindFault (f s) nb = rewindFault s nb
  faultEntry  : ∀ c, faultEntry c (f s) = f (faultEntry c s)
  respond     : ∀ st d, respond st d (f s) = f (respond st d s)
  afterRead   : ∀ n d, afterRead n d (f s) = f (afterRead n d s)
  afterRewind : ∀ nb, afterRewind nb (f s) = f (afterRewind nb s)

theorem UnseenByReads.rewind {f : State → State} (hf : UnseenByReads f s) (nb : Nat) :
    rewind nb (f s) = onNext f (rewind nb s) := by
  rw [Machine.rewind, Machine.rewind, hf.rewindFault, ← performUnless_onNext _ _ hf.faultEntry]
  exact congrArg (fun u => performUnless _ _ (.next u)) (hf.afterRewind nb)

theorem UnseenByReads.cell {f : State → State} (hf : UnseenByReads f s) (a : Nat) : (f s).cell a = s.cell a :=
  congrArg (Memory.read · a) hf.ring

theorem UnseenByReads.cap {f : State → State} (hf : UnseenByReads f s) : (f s).cap = s.cap := congrArg Config.cap hf.cfg

theorem UnseenByReads.pack {f : State → State} (hf : UnseenByReads f s) (n : Nat) :
    pack (f s) (f s).rd n = pack s s.rd n :=
  pack_congr fun k _ => by rw [ringIdx_eq, ringIdx_eq, hf.rd, hf.cap, hf.cell]

/-- Such an update made before a command that is no write is the update made after it. -/
theorem UnseenByReads.exec {f : State → State} (hf : UnseenByReads f s) (hi : ∀ v, i ≠ .wr8 v) :
    exec i (f s) = onNext f (exec i s) := by
  cases i with
  | pos =>
    rw [exec_pos_eq, exec_pos_eq, hf.tot, hf.respond]
    rfl
  | readn n =>
    rw [Machine.exec, Machine.exec, execReadn, execReadn, hf.readFault, hf.pack,
      ← performUnless_onNext _ _ hf.faultEntry]
    exact congrArg (fun u => performUnless _ _ (.next u)) (hf.afterRead _ _)
  | read1 =>
    rw [Machine.exec, Machine.exec, execRead1, execRead1, hf.read1Fault, ← performUnless_onNext _ _ hf.faultEntry, memRead,
      memRead, hf.rd, hf.cap, hf.cell]
    split_ifs
    · exact congrArg (fun u => performUnless _ _ (.next u)) (hf.afterRead 1 _)
    · rfl
  | wr8 v => exact absurd rfl (hi v)
  | rewbits n => exact hf.rewind _
  | rewbytes n => exact hf.rewind _

/-- An update of registers that WR8 neither reads nor writes. -/
structure UnseenByWrite (f : State → State) (s : State) : Prop where
  cfg        : (f s).cfg = s.cfg
  ring       : (f s).ring = s.ring
  wr         : (f s).wr = s.wr
  writeFault : writeFault (f s) = writeFault s
  faultEntry : ∀ c, faultEntry c (f s) = f (faultEntry c s)
  afterWrite : ∀ m, afterWrite m (f s) = f (afterWrite m s)

theorem UnseenByWrite.exec {f : State → State} (hf : UnseenByWrite f s) (v : Byte) :
    exec (.wr8 v) (f s) = onNext f (exec (.wr8 v) s) := by
  have hcap : (f s).cap = s.cap := congrArg Config.cap hf.cfg
  rw [exec_wr8_writtenRing, exec_wr8_writtenRing, hf.writeFault, hcap, hf.ring, hf.wr,
    ← performUnless_onNext _ _ hf.faultEntry]
  cases writtenRing s.cap s.ring s.wr v 8 with
  | none => rfl
  | some m => exact congrArg (fun u => performUnless _ _ (.next u)) (hf.afterWrite m)

/-- The write cursor replaced. -/
def setWr (x : Nat) (s : State) : State := { s with wr := x }

/-- The read cursor replaced. -/
def setRd (x : Nat) (s : State) : State := { s with rd := x }

/-- The counts replaced. -/
def setCounts (a b : Nat) (s : State) : State := { s with avail := a, hist := b }

theorem countRead_setWr (n x : Nat) (s : State) : countRead n (setWr x s) = setWr x (countRead n s) := by
  cases hm : s.mode <;> simp [countRead, setWr, hm]

theorem countRewind_setWr (nb x : Nat) (s : State) : countRewind nb (setWr x s) = setWr x (countRewind nb s) := by
  cases hm : s.mode <;> simp [countRewind, setWr, hm]

theorem unseenByReads_setWr (x : Nat) (s : State) : UnseenByReads (setWr x) s where
  cfg := rfl
  ring := rfl
  rd := rfl
  tot := rfl
  readFault _ := rfl
  read1Fault := rfl
  rewindFault _ := rfl
  faultEntry _ := rfl
  respond _ _ := rfl
  afterRead n d := congrArg (respond .ok d) (countRead_setWr n x (advanceRead n s))
  afterRewind nb := congrArg (respond .ok 0) (countRewind_setWr nb x (moveBack nb s))

theorem countWrite_setRd (x : Nat) (s : State) : countWrite (setRd x s) = setRd x (countWrite s) := by
  cases hm : s.mode <;> simp [countWrite, setRd, State.cap, hm]

theorem unseenByWrite_setRd (x : Nat) (s : State) : UnseenByWrite (setRd x) s where
  cfg := rfl
  ring := rfl
  wr := rfl
  writeFault := rfl
  faultEntry _ := rfl
  afterWrite m := congrArg (respond .ok 0) (countWrite_setRd x (advanceWrite (setRing m s)))

/-- In SILENT mode no fault condition looks at the counts and no count is written. -/
theorem unseenByReads_setCounts (hm : s.mode = .silent) (a b : Nat) : UnseenByReads (setCounts a b) s where
  cfg := rfl
  ring := rfl
  rd := rfl
  tot := rfl
  readFault n := (readFault_silent (s := setCounts a b s) hm n).trans (readFault_silent hm n).symm
  read1Fault := (read1Fault_silent (s := setCounts a b s) hm).trans (read1Fault_silent hm).symm
  rewindFault nb := (rewindFault_silent (s := setCounts a b s) hm nb).trans (rewindFault_silent hm nb).symm
  faultEntry _ := rfl
  respond _ _ := rfl
  afterRead n d := by
    rw [afterRead, afterRead, countRead_silent (advanceRead n (setCounts a b s)) n hm,
      countRead_silent (advanceRead n s) n hm]
    rfl
  afterRewind nb := by
    rw [afterRewind, afterRewind, countRewind_silent (moveBack nb (setCounts a b s)) nb hm,
      countRewind_silent (moveBack nb s) nb hm]
    rfl

theorem unseenByWrite_setCounts (hm : s.mode = .silent) (a b : Nat) : UnseenByWrite (setCounts a b) s where
  cfg := rfl
  ring := rfl
  wr := rfl
  writeFault := (writeFault_silent (s := setCounts a b s) hm).trans (writeFault_silent hm).symm
  faultEntry _ := rfl
  afterWrite m := by
    rw [afterWrite, afterWrite, countWrite_silent (advanceWrite (setRing m (setCounts a b s))) hm,
      countWrite_silent (advanceWrite (setRing m s)) hm]
    rfl

theorem exec_setCounts (hm : s.mode = .silent) (i : Instr) (a b : Nat) :
    exec i (setCounts a b s) = onNext (setCounts a b) (exec i s) := by
  by_cases hi : ∃ v, i = .wr8 v
  · obtain ⟨v, rfl⟩ := hi
    exact (unseenByWrite_setCounts hm a b).exec v
  · exact (unseenByReads_setCounts hm a b).exec fun v hv => hi ⟨v, hv⟩

/-- Settles O38: the reads do not see `WR`, the write does not see `RD`. -/
theorem cursorsAreIndependent : Obligations.CursorsAreIndependent :=
  ⟨fun _ s _ x hi h => ((unseenByReads_setWr x s).exec hi).trans (congrArg (onNext (setWr x)) h),
    fun v s _ x h => ((unseenByWrite_setRd x s).exec v).trans (congrArg (onNext (setRd x)) h)⟩

/-- Settles O39: the frame of the counts, and no command sees them. -/
theorem silentModeIgnoresCounts : Obligations.SilentModeIgnoresCounts := by
  intro i s t a b hm h
  obtain ⟨ha, hh⟩ := exec_keeps_counts (.inr hm) h
  exact ⟨ha, hh, (exec_setCounts hm i a b).trans (congrArg (onNext (setCounts a b)) h)⟩

/-! ### the arguments of the step -/

theorem onNext_eq_next {α β : Type} {f : α → β} {o : Host.Outcome α Fault Refusal} {b : β} (h : onNext f o = .next b) :
    ∃ a, o = .next a ∧ f a = b := by
  cases o with
  | next a => exact ⟨a, rfl, by injection h⟩
  | fault r => cases h
  | refused r => cases h

/-- No act of the host changes the parameters. -/
theorem hostAfter_cfg (s : State) : (hostAfter s).cfg = s.cfg := by
  cases hm : s.moves with
  | nil => simp [hostAfter, hm]
  | cons a rest =>
    cases a with
    | command w =>
      simp only [hostAfter, hm]
      split_ifs
      · rfl
      · cases s.rsp <;> rfl
    | takeResponse => simp [hostAfter, hm]
    | driveCheckMode m => simp [hostAfter, hm]
    | reset => simp [hostAfter, hm]

/-- Settles O49: the word is the BRB's step put back beside the host (`perform_onto`), and a step of the machine is the BRB's
with its result put back. -/
theorem parametersAndCommandsAreArguments : Obligations.ParametersAndCommandsAreArguments := by
  refine ⟨fun s w => (perform_onto s s rfl w).symm, fun s t h => ?_⟩
  obtain ⟨b, hb, rfl⟩ := onNext_eq_next h
  exact ⟨hb, hostAfter_cfg s⟩

end Sys2Proof.Machine
end

section
/-! The end of a zero-fill (spec/10_state.md rule R32) and the output ports (spec/30_encoding.md rule R70, R71). -/

namespace Sys2Proof.Machine

/-- `cmd_ready`, rule R71. -/
theorem cmdReady_eq_true_iff (s : State) : cmdReady s = true ↔ s.busy = false ∧ s.rsp = none := by
  simp [cmdReady]

theorem cmdReady_of_busy {s : State} (hb : s.busy = true) : cmdReady s = false := by simp [cmdReady, hb]

/-- While a fill is in progress the step ends it, whether nothing or a word is offered. -/
theorem step_of_busy {s : State} (hl : s.cfg.legal = true) (hb : s.busy = true)
    (hm : s.moves = [] ∨ ∃ w rest, s.moves = .command w :: rest) :
    step s = .next (withBlock s.toBlock.finishFill s) := by
  obtain hm | ⟨w, rest, hm⟩ := hm
  · rw [step_idle hl hm, Block.idle_of_busy _ hb]
  · exact step_command_busy hl hm hb

/-- Settles O46: the step is the end of the fill, which clears the ring and `BUSY` only. -/
theorem fillEndsBeforeCommand : Obligations.FillEndsBeforeCommand := fun _ hl hb hm =>
  ⟨cmdReady_of_busy hb, _, step_of_busy hl hb hm, fun _ => rfl, rfl⟩

/-- Settles O47: the ports are the registers, and `cmd_ready` is rule R71's. -/
theorem outputsFollowState : Obligations.OutputsFollowState := fun s =>
  ⟨cmdReady_eq_true_iff s, rfl, rfl, rfl, rfl⟩

end Sys2Proof.Machine
end

section
/-! The ring as memory (spec/20_memory.md): a read answers the next bits of the stream of written bits (rule R53), a run is its
commands in order (rule R60), and a cell keeps its last write (rule R65). -/

namespace Sys2Proof.Machine

variable {h : Session} {s t : State} {w : Word}

/-! ### reads of the stream -/

/-- READN is not refused: nothing is checked, or the count is in range and its bits are unread. -/
theorem readFault_eq_none_iff {n : Nat} :
    readFault s n = none ↔ s.mode = .silent ∨ (1 ≤ n ∧ n ≤ s.cap ∧ n ≤ s.avail) := by
  cases hm : s.mode with
  | silent => simp [readFault_silent hm]
  | checked =>
    rw [readFault_checked hm]
    split_ifs <;> simp <;> omega

/-- A READN that is not refused answers the cells it packs. -/
theorem exec_readn_performed {n : Arg} (hn : readFault s n.toNat = none) :
    exec (.readn n) s = .next (afterRead n.toNat (u32 (pack s s.rd n.toNat)) s) := by
  rw [exec, execReadn, countOf, hn, performUnless_none, afterRead]

/-- The number a list of bits spells, first bit most significant. -/
def bitsValue (bs : List Bit) : Nat := bs.foldl (fun v b => 2 * v + b.toNat) 0

theorem packBits_eq (bs : List Bit) : packBits bs = u32 (bitsValue bs) := rfl

theorem bitsValue_concat (bs : List Bit) (b : Bit) : bitsValue (bs ++ [b]) = 2 * bitsValue bs + b.toNat := by
  simp [bitsValue]

/-- The unread cells pack to the number that the unread bits of the stream spell. -/
theorem Tracks.pack_eq_bitsValue (ht : Tracks h s) : ∀ {n : Nat}, n ≤ s.avail →
    pack s s.rd n = bitsValue ((h.written.drop h.consumed).take n)
  | 0, _ => rfl
  | n + 1, hn => by
    have hlen := ht.consumed
    have hin : h.consumed + n < h.written.length := by omega
    have htake : (h.written.drop h.consumed).take (n + 1) =
        (h.written.drop h.consumed).take n ++ [h.written.getD (h.consumed + n) 0] := by
      rw [List.take_add_one, List.getElem?_drop, List.getElem?_eq_getElem hin, List.getD_eq_getElem _ _ hin]
      rfl
    rw [pack_succ, ht.unread n hn, ht.pack_eq_bitsValue (Nat.le_of_succ_le hn), htake, bitsValue_concat]

/-- Settles O22: the read is within the unread bits, so it packs the cells that hold the next bits of the stream. -/
theorem checkedReadsReturnWrittenStream : Obligations.CheckedReadsReturnWrittenStream := by
  intro h s n ht h1 hn
  obtain ⟨-, hsum⟩ := ht.wf.checked ht.mode
  have hf : readFault s n.toNat = none := readFault_eq_none_iff.mpr (.inr ⟨h1, by omega, hn⟩)
  refine ⟨_, exec_readn_performed hf, ?_⟩
  rw [afterRead, respond_rsp, ht.pack_eq_bitsValue hn, packBits_eq]

/-! ### a cell and its last write -/

/-- The k-th bit written of a byte as arithmetic, rule R130. -/
theorem byteBit_toNat (v : Byte) (k : Nat) : (byteBit v k).toNat = v.toNat / 2 ^ (7 - k) % 2 := by
  rw [byteBit, BitVec.toNat_ofBool, BitVec.getLsbD, Nat.testBit_eq_decide_div_mod_eq]
  rcases Nat.mod_two_eq_zero_or_one (v.toNat / 2 ^ (7 - k)) with hb | hb <;> simp [hb]

/-- The word is a WR8 whose eight cells reach cell `a`, and `t` holds the cell's bit of the byte. -/
def StoresBit (w : Word) (s t : State) (a : Nat) : Prop :=
  ∃ v, decode w = .ok (.wr8 v) ∧ s.wr ≤ a ∧ a < s.wr + 8 ∧ (t.cell a).toNat = v.toNat / 2 ^ (7 - (a - s.wr)) % 2

/-- A cell after a written byte: its bit of the byte, or what it held. -/
theorem WroteByte.cell_afterWrite {v : Byte} {m : Memory} (hb : WroteByte s v m) (a : Nat) :
    (afterWrite m s).cell a = if s.wr ≤ a ∧ a < s.wr + 8 then byteBit v (a - s.wr) else s.cell a := by
  simpa [State.cell] using hb.read a

/-- A command word leaves a cell alone or is a WR8 that stores the cell's bit. -/
theorem State.WF.performWord_cell (hs : s.WF) (hw : performWord w s = .next t) (a : Nat) :
    t.cell a = s.cell a ∨ StoresBit w s t a := by
  obtain ⟨-, rfl⟩ | ⟨-, -, rfl⟩ | ⟨-, i, hd, he⟩ := performWord_cases hw
  · exact .inl (refuseHalted_cell s a)
  · exact .inl (faultEntry_cell s _ a)
  · by_cases hi : ∀ v, i ≠ .wr8 v
    · exact .inl ((exec_keeps_ring hi he).2 a)
    · push Not at hi
      obtain ⟨v, rfl⟩ := hi
      obtain ⟨c, -, rfl⟩ | ⟨-, m, hb, rfl⟩ := exec_wr8_cases hs.ringWf hs.wr_le he
      · exact .inl (faultEntry_cell s c a)
      · have hcell := hb.cell_afterWrite a
        by_cases ha : s.wr ≤ a ∧ a < s.wr + 8
        · rw [if_pos ha] at hcell
          exact .inr ⟨v, hd, ha.1, ha.2, (congrArg BitVec.toNat hcell).trans (byteBit_toNat v _)⟩
        · rw [if_neg ha] at hcell
          exact .inl hcell

/-- Settles O37: of the acts of `step_cases` only a word performed and a reset touch the ring of a block that is not busy. -/
theorem cellsKeepLastWrite : Obligations.CellsKeepLastWrite := by
  intro s t a hs ht
  obtain ⟨-, ⟨-, rfl⟩ | ⟨w, rest, hm, hw⟩ | ⟨rest, -, rfl⟩ | ⟨m, rest, -, rfl⟩ | ⟨rest, hm, rfl⟩⟩ := step_cases ht
  · rw [Block.idle_of_not_busy _ hs.notBusy]
    exact .inl rfl
  · obtain ⟨hb, -⟩ | ⟨-, -, rfl⟩ | ⟨-, -, hp⟩ := hw
    · exact absurd (hb.symm.trans hs.notBusy) (by decide)
    · exact .inl (takeResponse_cell s a)
    · obtain hc | ⟨v, hstore⟩ := (hs.setMoves rest).performWord_cell hp a
      · exact .inl hc
      · exact .inr (.inl ⟨w, v, rest, hm, hstore⟩)
  · exact .inl rfl
  · exact .inl rfl
  · exact .inr (.inr ⟨rest, hm, rfl⟩)

/-! ### a run is its commands in order -/

theorem setMoves_setMoves (ms ms' : List HostMove) (s : State) : setMoves ms (setMoves ms' s) = setMoves ms s := rfl

theorem takeResponse_setMoves (ms : List HostMove) (s : State) :
    takeResponse (setMoves ms s) = setMoves ms (takeResponse s) := rfl

theorem run_of_step {M : Host.Core} {s t : M.State} (hs : M.step s = .next t) (k : Nat) : M.run (k + 1) s = M.run k t := by
  rw [Host.Core.run, hs]

theorem performAll_cons_of_next (ws : List Word) (hw : performWord w s = .next t) :
    performAll (w :: ws) s = performAll ws (takeResponse t) := by
  rw [performAll, hw]

/-- Two steps of a host that offers a word to a ready block and takes the response: the word performed, its response taken. -/
theorem core_run_word (hs : s.WF) (hr : s.rsp = none) (hw : performWord w s = .next t) (k : Nat) (ms : List HostMove) :
    core.run (k + 2) (setMoves (.command w :: .takeResponse :: ms) s) = core.run k (setMoves ms (takeResponse t)) := by
  have hoffer : step (setMoves (.command w :: .takeResponse :: ms) s) = .next (setMoves (.takeResponse :: ms) t) := by
    rw [step_command_ready (hs.setMoves _).legal (setMoves_moves _ _) hs.notBusy hr, setMoves_setMoves,
      performWord_setMoves _ hw]
  have htake : step (setMoves (.takeResponse :: ms) t) = .next (setMoves ms (takeResponse t)) := by
    rw [step_takeResponse ((hs.of_performWord hw).setMoves _).legal (setMoves_moves _ _), setMoves_setMoves,
      takeResponse_setMoves]
  exact (run_of_step (M := core) hoffer (k + 1)).trans (run_of_step (M := core) htake k)

/-- Settles O50, by induction on the words: each is performed in two steps, which leave a well-formed state whose response is
taken. -/
theorem runIsSequenceOfCommands : Obligations.RunIsSequenceOfCommands := by
  intro s ws rest
  induction ws generalizing s with
  | nil => exact fun _ _ => rfl
  | cons w ws ih =>
    intro hs hr
    obtain ⟨t, hw⟩ := hs.performWord_next w
    have hword := core_run_word hs hr hw (2 * ws.length) (hostProgram ws ++ rest)
    have hrest := ih _ (hs.of_performWord hw).takeResponse rfl
    have hall : performAll (w :: ws) (setMoves rest s) = performAll ws (setMoves rest (takeResponse t)) :=
      performAll_cons_of_next ws (performWord_setMoves rest hw)
    exact hword.trans (hrest.trans hall.symm)

end Sys2Proof.Machine
end

section
/-! Decoding and encoding (spec/30_encoding.md rule R73 to R79): a word decodes to a command exactly where its three fields are
that command's, which is exactly where the word is the command's encoding; and the illegal words as arithmetic. -/

namespace Sys2Proof

variable {w : Word} {i : Instr}

/-! ### the byte of WR8 in the argument field -/

theorem argHigh_setWidth (v : Byte) : argHigh (v.setWidth 16) = 0 := by
  have := v.isLt
  apply BitVec.eq_of_toNat_eq
  rw [argHigh_toNat, BitVec.toNat_setWidth]
  simp only [BitVec.reduceToNat]
  omega

theorem argLow_setWidth (v : Byte) : argLow (v.setWidth 16) = v := by
  have := v.isLt
  apply BitVec.eq_of_toNat_eq
  rw [argLow_toNat, BitVec.toNat_setWidth]
  omega

theorem setWidth_argLow {a : Arg} (h : argHigh a = 0) : (argLow a).setWidth 16 = a := by
  have hz : a.toNat / 2 ^ 8 = 0 := by rw [← argHigh_toNat, h]; rfl
  apply BitVec.eq_of_toNat_eq
  rw [BitVec.toNat_setWidth, argLow_toNat]
  omega

/-! ### decode and encode agree -/

/-- The three fields of `w`, rule R73, are those of the command `i`. -/
structure Spells (w : Word) (i : Instr) : Prop where
  rsvd : rsvdField w = 0
  op   : opField w = i.opcode
  arg  : argField w = i.arg

/-- The three fields are the whole word. -/
theorem eq_encode_iff_spells : w = encode i ↔ Spells w i := by
  refine ⟨fun h => h ▸ ⟨rsvdField_encode i, opField_encode i, argField_encode i⟩, fun ⟨hr, ho, ha⟩ => ?_⟩
  have hr' : w.toNat / 2 ^ 16 % 2 ^ 12 = 0 := by rw [← rsvdField_toNat, hr]; rfl
  apply BitVec.eq_of_toNat_eq
  rw [encode_toNat, ← ho, ← ha, opField_toNat, argField_toNat]
  omega

theorem Spells.decode_eq (h : Spells w i) : decode w = .ok i := by
  obtain ⟨hr, ho, ha⟩ := h
  cases i <;> simp only [Instr.opcode, Instr.arg] at ho ha <;>
    simp [decode, hr, ho, ha, argHigh_setWidth, argLow_setWidth]

/-- Each branch of the decoder that answers a command has compared the fields with that command's. -/
theorem spells_of_decode_eq (h : decode w = .ok i) : Spells w i := by
  simp only [decode, ne_eq, ite_not] at h
  split_ifs at h with hr hpos hreadn hread1 hwr8 hrewbits hrewbytes
  · cases h; exact ⟨hr, hpos.1, hpos.2⟩
  · cases h; exact ⟨hr, hreadn, rfl⟩
  · cases h; exact ⟨hr, hread1.1, hread1.2⟩
  · cases h; exact ⟨hr, hwr8.1, (setWidth_argLow hwr8.2).symm⟩
  · cases h; exact ⟨hr, hrewbits, rfl⟩
  · cases h; exact ⟨hr, hrewbytes, rfl⟩

theorem decode_eq_ok_iff_spells : decode w = .ok i ↔ Spells w i := ⟨spells_of_decode_eq, Spells.decode_eq⟩

/-- Settles O1: both sides say that the word's fields are the command's. -/
theorem decodeEncodeAgree : Obligations.DecodeEncodeAgree := fun _ _ =>
  decode_eq_ok_iff_spells.trans eq_encode_iff_spells.symm

/-! ### the illegal words -/

theorem opField_eq_iff (w : Word) (k : BitVec 4) : opField w = k ↔ w.toNat / 2 ^ 28 = k.toNat := by
  rw [← BitVec.toNat_inj, opField_toNat]

theorem rsvdField_eq_zero_iff (w : Word) : rsvdField w = 0 ↔ w.toNat / 2 ^ 16 % 2 ^ 12 = 0 := by
  rw [← BitVec.toNat_inj, rsvdField_toNat]
  rfl

theorem argField_eq_zero_iff (w : Word) : argField w = 0 ↔ w.toNat % 2 ^ 16 = 0 := by
  rw [← BitVec.toNat_inj, argField_toNat]
  rfl

theorem argHigh_argField_eq_zero_iff (w : Word) : argHigh (argField w) = 0 ↔ w.toNat % 2 ^ 16 / 2 ^ 8 = 0 := by
  rw [← BitVec.toNat_inj, argHigh_toNat, argField_toNat]
  rfl

/-- The illegal words of rule R76, with the fields as arithmetic on the word. -/
def IsIllegalWord (w : Word) : Prop :=
  w.toNat / 2 ^ 16 % 2 ^ 12 ≠ 0 ∨ w.toNat / 2 ^ 28 = 0 ∨ 7 ≤ w.toNat / 2 ^ 28 ∨
    (w.toNat / 2 ^ 28 = 1 ∨ w.toNat / 2 ^ 28 = 3) ∧ w.toNat % 2 ^ 16 ≠ 0 ∨
    w.toNat / 2 ^ 28 = 4 ∧ w.toNat % 2 ^ 16 / 2 ^ 8 ≠ 0

/-- The decoder refuses exactly the words of rule R76: each of its branches compares the fields as the rule does. -/
theorem exists_decode_eq_error_iff : (∃ e, decode w = .error e) ↔ IsIllegalWord w := by
  simp only [decode, IsIllegalWord, ne_eq, rsvdField_eq_zero_iff, opField_eq_iff, argField_eq_zero_iff,
    argHigh_argField_eq_zero_iff, BitVec.reduceToNat]
  split_ifs <;> simp only [exists_false, Except.error.injEq, exists_eq', true_iff, false_iff] <;> omega

theorem exists_decode_eq_ok_iff : (∃ i, decode w = .ok i) ↔ ¬IsIllegalWord w := by
  rw [← exists_decode_eq_error_iff]
  cases decode w <;> simp

end Sys2Proof

namespace Sys2Proof.Machine

variable {w : Word} {s : State}

theorem performWord_of_decode_error {e : DecodeError} (hf : s.flt = false) (hd : decode w = .error e) :
    performWord w s = .next (faultEntry .illegal s) := by
  simp [performWord, hf, hd]

theorem performWord_of_decode_ok {i : Instr} (hf : s.flt = false) (hd : decode w = .ok i) :
    performWord w s = exec i s := by
  simp [performWord, hf, hd]

/-- Settles O2: the words the decoder refuses, and the fault entry they cause. -/
theorem illegalWordsFault : Obligations.IllegalWordsFault := by
  refine fun w s hf => ⟨fun hw => ?_, fun hw => ?_⟩
  · obtain ⟨e, hd⟩ := exists_decode_eq_error_iff.mpr hw
    exact ⟨by rw [hd]; rfl, performWord_of_decode_error hf hd⟩
  · obtain ⟨i, hd⟩ := exists_decode_eq_ok_iff.mpr hw
    rw [hd]
    rfl

end Sys2Proof.Machine
end

section
/-! The command language (spec/30_encoding.md rule R84 to R86) and the status codes (rule R83). -/

namespace Sys2Proof

/-- A command's word as its opcode above its operand, rule R84. -/
theorem encode_eq_or {i : Instr} {k : Word} {n : Nat} (hk : k.toNat = i.opcode.toNat * 2 ^ 28) (hn : i.arg.toNat = n) :
    encode i = k ||| BitVec.ofNat 32 n := by
  have harg := i.arg.isLt
  apply BitVec.eq_of_toNat_eq
  rw [encode_toNat, BitVec.toNat_or, BitVec.toNat_ofNat, Nat.mod_eq_of_lt (by omega), hk, ← Nat.shiftLeft_eq,
    ← Nat.shiftLeft_add_eq_or_of_lt (by omega), hn]

/-! ### the words of the commands with an operand -/

theorem encode_readn {n : Nat} (h : n ≤ 65535) :
    encode (.readn (BitVec.ofNat 16 n)) = 0x20000000 ||| BitVec.ofNat 32 n :=
  encode_eq_or (by simp [Instr.opcode]) (Nat.mod_eq_of_lt (Nat.lt_succ_of_le h))

theorem encode_rewbits {n : Nat} (h : n ≤ 65535) :
    encode (.rewbits (BitVec.ofNat 16 n)) = 0x50000000 ||| BitVec.ofNat 32 n :=
  encode_eq_or (by simp [Instr.opcode]) (Nat.mod_eq_of_lt (Nat.lt_succ_of_le h))

theorem encode_rewbytes {n : Nat} (h : n ≤ 65535) :
    encode (.rewbytes (BitVec.ofNat 16 n)) = 0x60000000 ||| BitVec.ofNat 32 n :=
  encode_eq_or (by simp [Instr.opcode]) (Nat.mod_eq_of_lt (Nat.lt_succ_of_le h))

theorem encode_wr8 {b : Nat} (h : b ≤ 255) : encode (.wr8 (BitVec.ofNat 8 b)) = 0x40000000 ||| BitVec.ofNat 32 b := by
  refine encode_eq_or (by simp [Instr.opcode]) ?_
  rw [Instr.arg, BitVec.toNat_setWidth, BitVec.toNat_ofNat]
  omega

end Sys2Proof

namespace Sys2Proof.Machine

/-- A line assembled, by what its range check says. -/
theorem SourceLine.assemble_eq {l : SourceLine} {p : Prop} [Decidable p] {ws : List Word} (hr : l.inRange = decide p)
    (he : p → l.expand = ws) : l.assemble = if p then .ok ws else .error .outOfRange := by
  by_cases hp : p
  · simp [assemble, hr, hp, he hp]
  · simp [assemble, hr, hp]

/-- Settles O4: the range check of each line is rule R84's, and within it the line is its command's word. -/
theorem assembledWords : Obligations.AssembledWords :=
  ⟨rfl, rfl, fun _ =>
    ⟨SourceLine.assemble_eq rfl fun h => congrArg ([·]) (encode_readn h),
      SourceLine.assemble_eq rfl fun h => congrArg ([·]) (encode_wr8 h),
      SourceLine.assemble_eq rfl fun h => congrArg ([·]) (encode_rewbits h),
      SourceLine.assemble_eq rfl fun h => congrArg ([·]) (encode_rewbytes h), SourceLine.assemble_eq rfl fun _ => rfl⟩⟩

theorem assemble_peek {n : Nat} (h : n ≤ 65535) :
    (SourceLine.peek n).assemble = .ok [0x20000000 ||| BitVec.ofNat 32 n, 0x50000000 ||| BitVec.ofNat 32 n] := by
  have hr : (SourceLine.peek n).inRange = true := decide_eq_true h
  rw [SourceLine.assemble, if_pos hr, SourceLine.expand, encode_readn h, encode_rewbits h]

theorem assemble_wrseq {bs : List Nat} (h : ∀ b ∈ bs, b ≤ 255) :
    (SourceLine.wrseq bs).assemble = .ok (bs.map fun b => 0x40000000 ||| BitVec.ofNat 32 b) := by
  have hr : (SourceLine.wrseq bs).inRange = true := List.all_eq_true.mpr fun b hb => decide_eq_true (h b hb)
  rw [SourceLine.assemble, if_pos hr, SourceLine.expand, List.map_congr_left fun b hb => encode_wr8 (h b hb)]

/-- Settles O5: READ8 stands for one command, PEEK for two, WRSEQ for one a byte. -/
theorem pseudoInstructionExpansions : Obligations.PseudoInstructionExpansions :=
  ⟨rfl, fun _ => assemble_peek, fun _ => assemble_wrseq⟩

/-- Settles O3: closed examples, each evaluated. -/
theorem encodingExamples : Obligations.EncodingExamples := by
  unfold Obligations.EncodingExamples
  decide

theorem Status.code_ne_six_seven (st : Status) : st.code ≠ 6 ∧ st.code ≠ 7 := by cases st <;> decide

theorem Cause.code_ne_zero_five (c : Cause) : c.status.code ≠ 0 ∧ c.status.code ≠ 5 := by cases c <;> decide

/-- Settles O6: the codes are those of the definition, and neither a status nor a cause has another. -/
theorem statusCodes : Obligations.StatusCodes :=
  ⟨rfl, rfl, rfl, rfl, rfl, rfl, Status.code_ne_six_seven, Cause.code_ne_zero_five⟩

end Sys2Proof.Machine
end

section
/-! Responses (spec/30_encoding.md rule R72, R80 to R82) and the handshakes of a step (rule R71, R72): what the response to
each word carries, that a sequence of words gets one each, and what a step does with a word and with a response that waits. -/

namespace Sys2Proof.Machine

variable {s t : State} {i : Instr} {w : Word}

/-! ### what a response carries -/

/-- The packed value as the sum of rule R110. -/
theorem pack_eq_cellSum (s : State) (base : Nat) : ∀ n, pack s base n = cellSum s base n
  | 0 => rfl
  | n + 1 => by
    have hshift : ∀ k ∈ Finset.range n, (s.cell ((base + k) % s.cap)).toNat * 2 ^ (n + 1 - 1 - k) =
        2 * ((s.cell ((base + k) % s.cap)).toNat * 2 ^ (n - 1 - k)) := by
      intro k hk
      rw [Finset.mem_range] at hk
      rw [show n + 1 - 1 - k = n - 1 - k + 1 by omega, Nat.pow_succ]
      ring
    rw [pack_succ, pack_eq_cellSum s base n, ringIdx_eq, cellSum, cellSum, Finset.sum_range_succ,
      Finset.sum_congr rfl hshift, Finset.mul_sum]
    simp

/-- The data of an `OK` response to a command, rule R82. -/
def okData (s : State) : Instr → Word
  | .pos => s.tot
  | .readn n => u32 (cellSum s s.rd n.toNat)
  | .read1 => u32 (s.cell s.rd).toNat
  | .wr8 _ => 0
  | .rewbits _ => 0
  | .rewbytes _ => 0

/-- A command that ends well and is neither POS nor a read answers 0. -/
theorem Performs.rsp_zero (hp : Performs s i t) (hpos : i ≠ .pos) (hread : ∀ n, ¬ReadsBy i n) :
    t.rsp = some { status := .ok, data := 0 } := by
  cases hp with
  | pos => exact absurd rfl hpos
  | read d hi => exact absurd hi (hread _)
  | rewind => rfl
  | write => rfl

/-- What a command can answer: a fault's response, with data 0, or `OK` with data `d`. -/
def Answers (t : State) (d : Word) : Prop :=
  (∃ c : Cause, t.rsp = some { status := c.status, data := 0 }) ∨ t.rsp = some { status := .ok, data := d }

theorem answers_faultEntry (s : State) (c : Cause) (d : Word) : Answers (faultEntry c s) d := .inl ⟨c, rfl⟩

theorem answers_zero_of_exec (h : exec i s = .next t) (hpos : i ≠ .pos) (hread : ∀ n, ¬ReadsBy i n) : Answers t 0 := by
  obtain ⟨-, c, rfl⟩ | hp := exec_cases h
  · exact answers_faultEntry s c 0
  · exact .inr (hp.rsp_zero hpos hread)

theorem exec_answers (h : exec i s = .next t) : Answers t (okData s i) := by
  cases i with
  | pos =>
    obtain rfl : respond .ok s.tot s = t := by injection h
    exact .inr rfl
  | readn n =>
    obtain ⟨c, -, rfl⟩ | ⟨-, rfl⟩ := exec_readn_cases h
    · exact answers_faultEntry s c _
    · exact .inr (by rw [respond_rsp, pack_eq_cellSum]; rfl)
  | read1 =>
    obtain ⟨c, -, rfl⟩ | ⟨hr, -⟩ := exec_read1_next h
    · exact answers_faultEntry s c _
    · obtain ⟨c, -, rfl⟩ | ⟨-, rfl⟩ := exec_read1_cases hr h
      · exact answers_faultEntry s c _
      · exact .inr (by rw [respond_rsp, okData, u32, BitVec.ofNat_toNat])
  | wr8 v => exact answers_zero_of_exec h (by simp) (by simp [ReadsBy])
  | rewbits n => exact answers_zero_of_exec h (by simp) (by simp [ReadsBy])
  | rewbytes n => exact answers_zero_of_exec h (by simp) (by simp [ReadsBy])

/-- The response to a word: not `OK` and with data 0, or the `OK` of the command the word spells. -/
theorem performWord_rsp (h : performWord w s = .next t) :
    (∃ st, st ≠ Status.ok ∧ t.rsp = some { status := st, data := 0 }) ∨
      ∃ i, decode w = .ok i ∧ t.rsp = some { status := .ok, data := okData s i } := by
  obtain ⟨-, rfl⟩ | ⟨-, -, rfl⟩ | ⟨-, i, hd, he⟩ := performWord_cases h
  · exact .inl ⟨.halted, by decide, rfl⟩
  · exact .inl ⟨.illegal, by decide, rfl⟩
  · obtain ⟨c, hr⟩ | hr := exec_answers he
    · exact .inl ⟨c.status, c.status_ne_ok, hr⟩
    · exact .inr ⟨i, hd, hr⟩

/-- Settles O40: a response that is not `OK` carries 0, and an `OK` the data of its command. -/
theorem responseData : Obligations.ResponseData := by
  intro s t w h
  obtain ⟨st, hst, hr⟩ | ⟨i, hd, hr⟩ := performWord_rsp h
  · exact ⟨_, hr, fun _ => rfl, fun hok => absurd hok hst⟩
  · exact ⟨_, hr, fun hok => absurd rfl hok, fun _ => ⟨i, hd, by cases i <;> rfl⟩⟩

/-! ### one response a word -/

/-- A word takes no response: it only leaves its own on the port. -/
theorem performWord_taken (h : performWord w s = .next t) : t.taken = s.taken := by
  obtain ⟨-, rfl⟩ | ⟨-, -, rfl⟩ | ⟨-, i, -, he⟩ := performWord_cases h
  · exact refuseHalted_taken s
  · exact faultEntry_taken s _
  · obtain ⟨-, -, -, -, -, ht⟩ := exec_keeps_surroundings he
    exact ht

theorem takeResponse_taken_of_some {r : Response} (h : s.rsp = some r) :
    (takeResponse s).taken = s.taken ++ [r] := by
  rw [takeResponse_some s h]

/-- The first word of a sequence that answers is performed, and the rest after its response is taken. -/
theorem performAll_cons {ws : List Word} (h : performAll (w :: ws) s = .next t) :
    ∃ u, performWord w s = .next u ∧ performAll ws (takeResponse u) = .next t := by
  cases hw : performWord w s with
  | next u => exact ⟨u, rfl, (performAll_cons_of_next ws hw).symm.trans h⟩
  | fault f => simp [performAll, hw] at h
  | refused r => simp [performAll, hw] at h

/-- A word performed and its response taken: one more response among those taken. -/
theorem performAll_cons_response {ws : List Word} (h : performAll (w :: ws) s = .next t) :
    ∃ r u, performWord w s = .next u ∧ u.rsp = some r ∧ (takeResponse u).taken = s.taken ++ [r] ∧
      performAll ws (takeResponse u) = .next t := by
  obtain ⟨u, hw, hrest⟩ := performAll_cons h
  obtain ⟨r, hr, -⟩ := responseData s u w hw
  exact ⟨r, u, hw, hr, by rw [takeResponse_taken_of_some hr, performWord_taken hw], hrest⟩

/-- From a free port a sequence of words adds one response each to those taken. -/
theorem performAll_responses {ws : List Word} (hs : s.rsp = none) (h : performAll ws s = .next t) :
    ∃ rs, rs.length = ws.length ∧ t.taken = s.taken ++ rs ∧ t.rsp = none := by
  induction ws generalizing s with
  | nil =>
    obtain rfl : s = t := by injection h
    exact ⟨[], rfl, (List.append_nil _).symm, hs⟩
  | cons w ws ih =>
    obtain ⟨r, u, -, -, hu, hrest⟩ := performAll_cons_response h
    obtain ⟨rs, hlen, htaken, hfree⟩ := ih rfl hrest
    exact ⟨r :: rs, congrArg (· + 1) hlen, by rw [htaken, hu, List.append_assoc, List.singleton_append], hfree⟩

/-- Settles O51: the first word leaves its response, which is taken, and the later ones get theirs from a free port. -/
theorem oneResponsePerWord : Obligations.OneResponsePerWord := by
  intro s t w ws h
  obtain ⟨r, u, hw, hr, hu, hrest⟩ := performAll_cons_response h
  obtain ⟨rs, hlen, htaken, hfree⟩ := performAll_responses rfl hrest
  exact ⟨r, u, rs, hw, hr, hlen, by rw [htaken, hu, List.append_assoc, List.singleton_append], hfree⟩

/-! ### the handshakes -/

/-- Settles O41: a ready block performs the word, which is past the halt check and decodes. -/
theorem readyStepRunsDecodedCommand : Obligations.ReadyStepRunsDecodedCommand := fun _ _ _ _ hl hb hr hf hm hd =>
  (step_command_ready hl hm hb hr).trans (performWord_of_decode_ok hf hd)

/-- Settles O42: with a response waiting the step is its taking. -/
theorem unreadyCommandStaysOffered : Obligations.UnreadyCommandStaysOffered := fun s _ _ _ hl hb hm hr => by
  rw [step_command_waiting hl hm hb hr, takeResponse_some s hr]

/-- Settles O43: the step is the taking, the host's later acts left. -/
theorem responseTakenOnce : Obligations.ResponseTakenOnce := fun _ _ hl hm => step_takeResponse hl hm

end Sys2Proof.Machine
end

section
/-! The position counter (spec/40_position.md): what POS answers (rule R100), and `TOT` as the bits read minus the bits
rewound by the successful commands, word by word and since reset (rule R101). -/

namespace Sys2Proof.Machine

variable {s t : State} {i : Instr} {w : Word} {r : Response}

/-! ### POS -/

theorem performWord_of_halted (hf : s.flt = true) (w : Word) : performWord w s = .next (refuseHalted s) := by
  simp [performWord, hf]

/-- Of the words with POS's opcode only POS has zeros below it, rule R74. -/
theorem isIllegalWord_of_pos_opcode (hop : w.toNat / 2 ^ 28 = 1) (hne : w ≠ 0x10000000) : IsIllegalWord w := by
  have hnat : w.toNat ≠ 2 ^ 28 := fun h => hne (BitVec.eq_of_toNat_eq h)
  simp only [IsIllegalWord]
  omega

/-- Settles O7: the word is POS's encoding, its arm reads `TOT`, and every other word with its opcode is illegal. -/
theorem posMeaning : Obligations.PosMeaning := by
  refine ⟨(decodeEncodeAgree _ _).mpr rfl, exec_pos_eq, fun s w hf hop hne => ?_, fun s hf => performWord_of_halted hf _⟩
  obtain ⟨e, hd⟩ := exists_decode_eq_error_iff.mpr (isIllegalWord_of_pos_opcode hop hne)
  exact performWord_of_decode_error hf hd

/-! ### one word -/

theorem ReadsBy.netBits_eq {n : Nat} (hi : ReadsBy i n) : netBits i = n := by
  obtain ⟨a, rfl, rfl⟩ | ⟨rfl, rfl⟩ := hi <;> rfl

theorem RewindsBy.netBits_eq {nb : Nat} (hi : RewindsBy i nb) : netBits i = -nb := by
  obtain ⟨a, rfl, rfl⟩ | ⟨a, rfl, rfl⟩ := hi <;> simp [netBits]

/-- A command that ends well moves `TOT` by its net bits: a read forward, a rewind back, POS and WR8 not at all. -/
theorem Performs.tot_eq (hp : Performs s i t) : t.tot = s.tot + BitVec.ofInt 32 (netBits i) := by
  cases hp with
  | pos => simp [netBits]
  | read d hi => simp [hi.netBits_eq, u32]
  | rewind hi => simp [hi.netBits_eq, u32, BitVec.ofInt_neg, BitVec.sub_eq_add_neg]
  | write => simp [netBits]

theorem netBitsOf_singleton_of_ok {d : Word} (hd : decode w = .ok i) :
    netBitsOf [(w, { status := .ok, data := d })] = netBits i := by
  simp [netBitsOf, hd]

theorem netBitsOf_singleton_of_ne_ok (hr : r.status ≠ .ok) : netBitsOf [(w, r)] = 0 := by
  cases hd : decode w <;> simp [netBitsOf, hd, hr]

/-- A word that is not answered `OK` adds no bits, so rule R101 holds of it where `TOT` is left alone. -/
theorem tot_eq_of_rsp_ne_ok (hr : t.rsp = some r) (hst : r.status ≠ .ok) (ht : t.tot = s.tot) :
    ∃ r, t.rsp = some r ∧ t.tot = s.tot + BitVec.ofInt 32 (netBitsOf [(w, r)]) :=
  ⟨r, hr, by simp [netBitsOf_singleton_of_ne_ok hst, ht]⟩

/-- Settles O52: a refusal and a fault leave `TOT` alone, and a command that ends well answers `OK` and moves it by its net
bits. -/
theorem totalAfterWord : Obligations.TotalAfterWord := by
  intro s t w h
  obtain ⟨-, rfl⟩ | ⟨-, -, rfl⟩ | ⟨-, i, hd, he⟩ := performWord_cases h
  · exact tot_eq_of_rsp_ne_ok (refuseHalted_rsp s) (by decide) (refuseHalted_tot s)
  · exact tot_eq_of_rsp_ne_ok (faultEntry_rsp s .illegal) (by decide) (faultEntry_tot s .illegal)
  · obtain ⟨-, c, rfl⟩ | hp := exec_cases he
    · exact tot_eq_of_rsp_ne_ok (faultEntry_rsp s c) c.status_ne_ok (faultEntry_tot s c)
    · obtain ⟨d, hr⟩ := hp.rsp_ok
      exact ⟨_, hr, by rw [netBitsOf_singleton_of_ok hd, hp.tot_eq]⟩

/-! ### a sequence of words -/

theorem netBitsOf_cons (p : Word × Response) (l : List (Word × Response)) :
    netBitsOf (p :: l) = netBitsOf [p] + netBitsOf l := by
  simp [netBitsOf]

/-- From any state a sequence of words adds to `TOT` the net bits of its words with the responses they got. -/
theorem performAll_tot {ws : List Word} (h : performAll ws s = .next t) :
    ∃ rs, t.taken = s.taken ++ rs ∧ t.tot = s.tot + BitVec.ofInt 32 (netBitsOf (ws.zip rs)) := by
  induction ws generalizing s with
  | nil =>
    obtain rfl : s = t := by injection h
    exact ⟨[], by simp [netBitsOf]⟩
  | cons w ws ih =>
    obtain ⟨r, u, hw, hr, htaken, hrest⟩ := performAll_cons_response h
    obtain ⟨r', hr', hword⟩ := totalAfterWord s u w hw
    obtain rfl : r = r' := Option.some.inj (hr.symm.trans hr')
    obtain ⟨rs, hrs, htot⟩ := ih hrest
    refine ⟨r :: rs, by rw [hrs, htaken, List.append_assoc, List.singleton_append], ?_⟩
    rw [htot, takeResponse_tot, hword, List.zip_cons_cons, netBitsOf_cons (w, r) (ws.zip rs), BitVec.ofInt_add,
      BitVec.add_assoc]

/-- Settles O53: reset leaves `TOT` at 0 and no response taken, so `TOT` and the responses taken are those of the words. -/
theorem positionAccounting : Obligations.PositionAccounting := by
  intro c m ws t _ h
  obtain ⟨rs, htaken, htot⟩ := performAll_tot h
  have hrs : (observe t).responses = rs := htaken
  rw [hrs, htot]
  exact BitVec.zero_add _

end Sys2Proof.Machine
end

section
/-! The two reads (spec/41_read.md): the packed value (rule R110, R111), READN and READ1 in every case (rule R112, R114, R115),
a read that ends on the last cell (rule R113) and the round trip of a byte (rule R117). -/

namespace Sys2Proof.Machine

variable {s t : State}

/-! ### the packed value -/

/-- A packing in two parts: the cells read first are the high bits. -/
theorem pack_add (s : State) (base m : Nat) : ∀ n, pack s base (m + n) = 2 ^ n * pack s base m + pack s (base + m) n
  | 0 => by simp
  | n + 1 => by
    rw [← Nat.add_assoc, pack_succ, pack_add s base m n, pack_succ, ringIdx_eq, ringIdx_eq, Nat.add_assoc base m n]
    ring

theorem u32_toNat_of_lt {v : Nat} (h : v < 2 ^ 32) : (u32 v).toNat = v := Nat.mod_eq_of_lt h

/-- What is shifted out above 32 bits is gone. -/
theorem u32_mul_add (a b : Nat) : u32 (2 ^ 32 * a + b) = u32 b :=
  BitVec.eq_of_toNat_eq (Nat.mul_add_mod _ _ _)

theorem u32_pack_last {n : Nat} (s : State) (base : Nat) (h : 32 ≤ n) :
    u32 (pack s base n) = u32 (pack s (base + (n - 32)) 32) := by
  obtain ⟨m, rfl⟩ := Nat.exists_eq_add_of_le' h
  rw [pack_add, u32_mul_add, Nat.add_sub_cancel]

theorem cellSum_one (hr : s.rd < s.cap) : cellSum s s.rd 1 = (s.cell s.rd).toNat := by
  simp [cellSum, Nat.mod_eq_of_lt hr]

theorem Answers.data_eq {d e : Word} (ha : Answers t e) (hr : t.rsp = some { status := .ok, data := d }) : d = e := by
  obtain ⟨c, hc⟩ | hok := ha
  · have hst : c.status = .ok := congrArg Response.status (Option.some.inj (hc.symm.trans hr))
    exact absurd hst c.status_ne_ok
  · exact congrArg Response.data (Option.some.inj (hr.symm.trans hok))

/-- A READ1 that answers `OK` has read a cell that exists. -/
theorem rd_lt_of_exec_read1_ok {d : Word} (h : exec .read1 s = .next t)
    (hr : t.rsp = some { status := .ok, data := d }) : s.rd < s.cap := by
  obtain ⟨c, -, rfl⟩ | ⟨hlt, -⟩ := exec_read1_next h
  · simp [c.status_ne_ok] at hr
  · exact hlt

/-- Settles O8: the packing loop is the sum, the last 32 cells are its low 32 bits, and a read answers those. -/
theorem packedValue : Obligations.PackedValue := by
  refine fun s => ⟨fun base n => ⟨pack_eq_cellSum s base n, pack_lt s base n, fun hn => ?_, fun hn => ?_⟩,
    fun n t d h hr => ?_, fun t d h hr => ?_⟩
  · have hlt : pack s base n < 2 ^ 32 := (pack_lt s base n).trans_le (Nat.pow_le_pow_right (by decide) hn)
    rw [u32_toNat_of_lt hlt, pack_eq_cellSum]
  · rw [u32_pack_last s base hn, pack_eq_cellSum]
  · rw [(exec_answers h).data_eq hr, okData, pack_eq_cellSum]
  · rw [(exec_answers h).data_eq hr, okData, pack_eq_cellSum, cellSum_one (rd_lt_of_exec_read1_ok h hr)]

/-! ### READN -/

theorem add_u32 (w : Word) (n : Nat) : w + u32 n = BitVec.ofNat 32 (w.toNat + n) := by
  rw [BitVec.ofNat_add, BitVec.ofNat_toNat, BitVec.setWidth_eq, u32]

/-- A performed read in SILENT mode: `RD`, `TOT` and the response. -/
theorem afterRead_silent (hm : s.mode = .silent) (n : Nat) (d : Word) :
    afterRead n d s = { s with
      rd := (s.rd + n) % s.cap
      tot := BitVec.ofNat 32 (s.tot.toNat + n)
      rsp := some { status := .ok, data := d } } := by
  rw [afterRead, countRead_silent (advanceRead n s) n hm, advanceRead, ringIdx_eq, add_u32]
  rfl

/-- A performed read in CHECKED mode: the counts too. -/
theorem afterRead_checked (hm : s.mode = .checked) (n : Nat) (d : Word) :
    afterRead n d s = { s with
      rd := (s.rd + n) % s.cap
      tot := BitVec.ofNat 32 (s.tot.toNat + n)
      avail := s.avail - n
      hist := s.hist + n
      rsp := some { status := .ok, data := d } } := by
  rw [afterRead, countRead_checked (advanceRead n s) n hm, advanceRead, ringIdx_eq, add_u32]
  rfl

theorem exec_readn_eq (n : Arg) (s : State) : exec (.readn n) s =
    performUnless (readFault s n.toNat) s (.next (afterRead n.toNat (u32 (pack s s.rd n.toNat)) s)) := rfl

theorem exec_readn_faulted {n : Arg} {c : Cause} (hf : readFault s n.toNat = some c) :
    exec (.readn n) s = .next (faultEntry c s) := by
  rw [exec_readn_eq, hf, performUnless_some]

theorem decode_readn (n : Arg) : decode (0x20000000 ||| n.setWidth 32) = .ok (.readn n) := by
  have henc := encode_readn (Nat.le_of_lt_succ n.isLt)
  rw [BitVec.ofNat_toNat, BitVec.setWidth_eq, BitVec.ofNat_toNat] at henc
  exact (decodeEncodeAgree _ _).mpr henc.symm

/-- Settles O9: the fault condition decides between the fault entry and the performed read, which the mode gives. -/
theorem readnMeaning : Obligations.ReadnMeaning := by
  refine fun s n => ⟨decode_readn n, fun hm => ?_, fun hm hn => ?_, fun hm h1 hc ha => ?_, fun hm h1 hc ha => ?_⟩
  · rw [exec_readn_performed (readFault_silent hm _), afterRead_silent hm, pack_eq_cellSum, u32]
  · exact exec_readn_faulted (by rw [readFault_checked hm, if_pos hn])
  · exact exec_readn_faulted (by rw [readFault_checked hm, if_neg (by omega), if_pos ha])
  · rw [exec_readn_performed (readFault_eq_none_iff.mpr (.inr ⟨h1, hc, ha⟩)), afterRead_checked hm, pack_eq_cellSum, u32]

/-- Settles O12: the read is not refused, and its cursor is `CAP` modulo `CAP`. -/
theorem readEndingOnLastCell : Obligations.ReadEndingOnLastCell := by
  intro s n hend hn
  have hf : readFault s n.toNat = none := by
    cases hm : s.mode with
    | silent => exact readFault_silent hm _
    | checked =>
      obtain ⟨h1, ha⟩ := hn hm
      exact readFault_eq_none_iff.mpr (.inr ⟨h1, by omega, ha⟩)
  refine ⟨_, exec_readn_performed hf, ?_⟩
  simp [ringIdx_eq, hend]

/-! ### READ1 -/

/-- READ1 where its cell exists. -/
theorem exec_read1_eq (hr : s.rd < s.cap) : exec .read1 s =
    performUnless (read1Fault s) s (.next (afterRead 1 ((s.cell s.rd).setWidth 32) s)) := by
  simp only [exec, execRead1, memRead_of_lt hr, afterRead]

/-- One bit is always a count in range, so only the underflow is left of READN's faults. -/
theorem readFault_one (s : State) : readFault s 1 = read1Fault s := by
  have hcap := cap_pos s
  cases hm : s.mode with
  | silent => rw [readFault_silent hm, read1Fault_silent hm]
  | checked => simp [readFault_checked hm, read1Fault_checked hm, Nat.not_lt.mpr hcap]

/-- Settles O11: the same fault condition, the same bit, the same move. -/
theorem read1EqualsReadn1 : Obligations.Read1EqualsReadn1 := by
  intro s h
  have hbit : u32 (pack s s.rd 1) = (s.cell s.rd).setWidth 32 := by
    rw [pack_eq_cellSum, cellSum_one h.rd_lt, u32, BitVec.ofNat_toNat]
  rw [exec_read1_eq h.rd_lt, ← readFault_one, ← hbit]
  rfl

/-- Of the words with READ1's opcode only READ1 has zeros below it, rule R74. -/
theorem isIllegalWord_of_read1_opcode {w : Word} (hop : w.toNat / 2 ^ 28 = 3) (hne : w ≠ 0x30000000) :
    IsIllegalWord w := by
  have hnat : w.toNat ≠ 3 * 2 ^ 28 := fun h => hne (BitVec.eq_of_toNat_eq h)
  simp only [IsIllegalWord]
  omega

/-- Settles O10: READ1 is READN 1, whose one packed cell is the one at `RD`. -/
theorem read1Meaning : Obligations.Read1Meaning := by
  refine ⟨(decodeEncodeAgree _ _).mpr rfl, fun s w hf hop hne => ?_, fun s hs => ?_⟩
  · obtain ⟨e, hd⟩ := exists_decode_eq_error_iff.mpr (isIllegalWord_of_read1_opcode hop hne)
    exact performWord_of_decode_error hf hd
  · obtain ⟨-, hsilent, -, hunderflow, hchecked⟩ := readnMeaning s 1
    rw [read1EqualsReadn1 s hs, ← cellSum_one hs.rd_lt]
    exact ⟨hsilent, fun hm ha => hunderflow hm (Nat.le_refl 1) (cap_pos s) (ha.trans_lt Nat.one_pos),
      fun hm ha => hchecked hm (Nat.le_refl 1) (cap_pos s) ha⟩

/-! ### the round trip -/

/-- The first `n` bits written of a byte pack to its high `n` bits. -/
theorem pack_of_byteBits {v : Byte} {base : Nat} (hc : ∀ k, k < 8 → s.cell (ringIdx s base k) = byteBit v k) :
    ∀ n, n ≤ 8 → pack s base n = v.toNat / 2 ^ (8 - n)
  | 0, _ => (Nat.div_eq_of_lt v.isLt).symm
  | n + 1, hn => by
    have hhalf : v.toNat / 2 ^ (8 - n) = v.toNat / 2 ^ (7 - n) / 2 := by
      rw [Nat.div_div_eq_div_mul, ← Nat.pow_succ, Nat.succ_eq_add_one, show 7 - n + 1 = 8 - n by omega]
    rw [pack_succ, pack_of_byteBits hc n (by omega), hc n hn, byteBit_toNat, hhalf, Nat.add_sub_add_right 7 1 n]
    exact Nat.div_add_mod _ 2

/-- The eight cells of a byte written at the read cursor are the next eight a read takes. -/
theorem WroteByte.pack_afterWrite {v : Byte} {m : Memory} (hb : WroteByte s v m) (hs : s.WF) (hrw : s.rd = s.wr) :
    pack (afterWrite m s) (afterWrite m s).rd 8 = v.toNat := by
  have hle := hs.wr_le
  refine (pack_of_byteBits (fun k hk => ?_) 8 (Nat.le_refl 8)).trans (Nat.div_one _)
  have hidx : ringIdx (afterWrite m s) (afterWrite m s).rd k = s.wr + k := by
    simp [ringIdx_eq, hrw, Nat.mod_eq_of_lt (by omega : s.wr + k < s.cap)]
  rw [hidx, hb.cell_afterWrite, if_pos (by omega), Nat.add_sub_cancel_left]

/-- After a written byte eight bits can be read in either mode. -/
theorem readFault_afterWrite (hs : s.WF) (m : Memory) : readFault (afterWrite m s) 8 = none := by
  obtain ⟨hcap, -, -⟩ := cap_of_legal hs.legal
  refine readFault_eq_none_iff.mpr ?_
  cases hm : s.mode with
  | silent => exact .inl (by simp [hm])
  | checked => exact .inr (by simp [hm, hcap])

/-- Settles O20: the write is not refused, the read finds its eight bits, and they spell the byte. -/
theorem byteRoundTrip : Obligations.ByteRoundTrip := by
  intro s v hs hrw hroom
  have hf : writeFault s = none := by
    cases hm : s.mode with
    | silent => exact writeFault_silent hm
    | checked => exact writeFault_eq_none_iff.mpr (.inr (hroom hm))
  obtain ⟨m, hb, he⟩ := exec_wr8_eq hs.ringWf hs.wr_le v
  rw [hf, performUnless_none] at he
  refine ⟨afterWrite m s, _, he, exec_readn_performed (n := 8) (readFault_afterWrite hs m), ?_⟩
  have hpack : pack (afterWrite m s) (afterWrite m s).rd (8 : Arg).toNat = v.toNat := hb.pack_afterWrite hs hrw
  rw [afterRead, respond_rsp, hpack, u32, BitVec.ofNat_toNat]

end Sys2Proof.Machine
end

section
/-! The byte write (spec/42_write.md): WR8 in every case (rule R130, R131), the masked form of its cursor (rule R132), and the
retained history under a write (rule R133). -/

namespace Sys2Proof.Machine

variable {h : Session} {s t : State} {v : Byte} {m : Memory}

/-! ### WR8 -/

/-- The overflow is CHECKED mode's alone, so room in that mode is all a write needs. -/
theorem writeFault_eq_none_of_room (hroom : s.mode = .checked → s.avail + 8 ≤ s.cap) : writeFault s = none := by
  cases hm : s.mode with
  | silent => exact writeFault_silent hm
  | checked => exact writeFault_eq_none_iff.mpr (.inr (hroom hm))

/-- A WR8 of a well-formed state that has room writes its byte. -/
theorem State.WF.exec_wr8_performed (hs : s.WF) (hroom : s.mode = .checked → s.avail + 8 ≤ s.cap) (v : Byte) :
    ∃ m, WroteByte s v m ∧ exec (.wr8 v) s = .next (Machine.afterWrite m s) := by
  obtain ⟨m, hb, he⟩ := exec_wr8_eq hs.ringWf hs.wr_le v
  rw [writeFault_eq_none_of_room hroom, performUnless_none] at he
  exact ⟨m, hb, he⟩

theorem exec_wr8_faulted {c : Cause} (hf : writeFault s = some c) (v : Byte) :
    exec (.wr8 v) s = .next (faultEntry c s) := by
  rw [exec_wr8_writtenRing, hf, performUnless_some]

/-- A performed byte write: the ring, `WR`, the counts in CHECKED mode, and the response. -/
theorem afterWrite_eq (m : Memory) (s : State) : afterWrite m s = { s with
    ring := m
    wr := nextWriteCursor s.cap s.wr
    avail := if s.mode = .checked then s.avail + 8 else s.avail
    hist := if s.mode = .checked then min s.hist (s.cap - (s.avail + 8)) else s.hist
    rsp := some { status := .ok, data := 0 } } := by
  have hmode : s.mode = .silent ∨ s.mode = .checked := by cases s.mode <;> simp
  obtain hm | hm := hmode
  · have hne : s.mode ≠ .checked := by simp [hm]
    rw [afterWrite, countWrite_silent (advanceWrite (setRing m s)) hm, if_neg hne, if_neg hne]
    rfl
  · rw [afterWrite, countWrite_checked (advanceWrite (setRing m s)) hm, if_pos hm, if_pos hm]
    rfl

/-- The cell `WR + k` after a written byte, rule R130. -/
theorem WroteByte.cell_written (hb : WroteByte s v m) {k : Nat} (hk : k < 8) :
    ((afterWrite m s).cell (s.wr + k)).toNat = v.toNat / 2 ^ (7 - k) % 2 := by
  rw [hb.cell_afterWrite, if_pos (by omega), Nat.add_sub_cancel_left, byteBit_toNat]

/-- A cell outside the eight keeps its value. -/
theorem WroteByte.cell_kept (hb : WroteByte s v m) {i : Nat} (hi : i < s.wr ∨ s.wr + 8 ≤ i) :
    (afterWrite m s).cell i = s.cell i := by
  rw [hb.cell_afterWrite, if_neg (by omega)]

theorem decode_wr8 (v : Byte) : decode (0x40000000 ||| v.setWidth 32) = .ok (.wr8 v) := by
  have henc := encode_wr8 (Nat.le_of_lt_succ v.isLt)
  rw [BitVec.ofNat_toNat, BitVec.setWidth_eq, BitVec.ofNat_toNat] at henc
  exact (decodeEncodeAgree _ _).mpr henc.symm

/-- A word with WR8's opcode has zeros between it and the byte, or is illegal, rule R74, R76. -/
theorem isIllegalWord_of_wr8_opcode {w : Word} (hop : w.toNat / 2 ^ 28 = 4) (hlow : 2 ^ 8 ≤ w.toNat % 2 ^ 28) :
    IsIllegalWord w := by
  simp only [IsIllegalWord]
  omega

/-- Settles O13: the fault condition decides between the fault entry and the byte written. -/
theorem wr8Meaning : Obligations.Wr8Meaning := by
  refine ⟨fun s w hf hop hlow => ?_, fun s v hs => ⟨decode_wr8 v, fun hm hfull => ?_, fun hroom => ?_⟩⟩
  · obtain ⟨e, hd⟩ := exists_decode_eq_error_iff.mpr (isIllegalWord_of_wr8_opcode hop hlow)
    exact performWord_of_decode_error hf hd
  · exact exec_wr8_faulted (by rw [writeFault_checked hm, if_pos hfull]) v
  · obtain ⟨m, hb, he⟩ := hs.exec_wr8_performed hroom v
    refine ⟨afterWrite m s, he, fun k hk => hb.cell_written hk, fun i hi => hb.cell_kept hi, ?_⟩
    rw [afterWrite_eq, nextWriteCursor]

/-! ### the write cursor -/

/-- Settles O14: the invariant keeps a byte of room at `WR`, and the compare-and-wrap is the remainder by `CAP`, which is the
mask. -/
theorem writeCursorMaskedForm : Obligations.WriteCursorMaskedForm := by
  refine ⟨fun c m => rfl, fun s v hs hroom => ?_⟩
  obtain ⟨-, hcap8, -⟩ := cap_of_legal hs.legal
  obtain ⟨m, -, he⟩ := hs.exec_wr8_performed hroom v
  have hle := hs.wr_le
  have hwr : (afterWrite m s).wr = nextWriteCursor s.cap s.wr := by rw [afterWrite_eq]
  refine ⟨hcap8, hs.wr_mod, fun k hk => by omega, afterWrite m s, he, ?_, ?_⟩
  · rw [hwr, nextWriteCursor]
    split_ifs
    · exact .inr rfl
    · exact .inl rfl
  · rw [hwr, nextWriteCursor_eq_mod hle, and_mask]

/-! ### the retained history -/

/-- Cells that no write has reached take no retained bit away: the history is whole, rule R133. -/
theorem Tracks.hist_afterWrite_of_fresh (ht : Tracks h s) (m : Memory) (hnew : h.written.length + 8 ≤ s.cap) :
    (Machine.afterWrite m s).hist = s.hist := by
  have hlen := ht.consumed
  have hfresh := ht.fresh
  obtain ⟨-, hsum⟩ := ht.wf.checked ht.mode
  have hhist : (Machine.afterWrite m s).hist = min s.hist (s.cap - (s.avail + 8)) := by simp [ht.mode]
  rw [hhist]
  omega

/-- Once every cell has been written, all but the unread ones are retained, rule R38 item 5. -/
theorem Tracks.avail_add_hist_eq_cap (ht : Tracks h s) (hfull : s.cap ≤ h.written.length) : s.avail + s.hist = s.cap := by
  have hfresh := ht.fresh
  obtain ⟨-, hsum⟩ := ht.wf.checked ht.mode
  omega

theorem rewind_faulted {nb : Nat} {c : Cause} (hf : rewindFault s nb = some c) :
    rewind nb s = .next (faultEntry c s) := by
  rw [rewind, hf, performUnless_some]

/-- A rewind in range but past the retained history underflows, rule R140. -/
theorem rewind_underflow (hm : s.mode = .checked) {nb : Nat} (hcap : nb ≤ s.cap) (hpast : s.hist < nb) :
    rewind nb s = .next (faultEntry .underflow s) :=
  rewind_faulted (by rw [rewindFault_checked hm, if_neg (Nat.not_lt.mpr hcap), if_pos hpast])

/-- Settles O15: the session after the write tracks its history, whose length says whether the ring has been filled. -/
theorem historyUnderWrite : Obligations.HistoryUnderWrite := by
  intro h s v ht hroom
  have hf := writeFault_eq_none_of_room fun _ => hroom
  obtain ⟨m, hb, he⟩ := ht.wf.exec_wr8_performed (fun _ => hroom) v
  have ht' : Tracks (h.after (.wr8 v)) (afterWrite m s) := ht.afterWrite hf hb
  have hcap : (afterWrite m s).cap = s.cap := by simp
  refine ⟨afterWrite m s, he, by simp [ht.mode], ht.hist_afterWrite_of_fresh m, fun hfull => ?_, fun n hpast hn => ?_⟩
  · rw [← hcap]
    refine ht'.avail_add_hist_eq_cap ?_
    rw [hcap, length_after_wr8]
    exact hfull.le
  · rw [exec_rewbits_eq]
    exact rewind_underflow ht'.mode (hn.trans_eq hcap.symm) hpast

end Sys2Proof.Machine
end

section
/-! The rewinds (spec/43_rewind.md): REWBITS and REWBYTES in every case over their shared core (rule R140 to R143), SILENT
mode's faults (rule R144), and a read undone by a rewind (rule R145). -/

namespace Sys2Proof.Machine

variable {s t : State} {i : Instr}

/-! ### the shared core -/

/-- A rewind that is not refused moves the cursor and the counter back. -/
theorem rewind_performed {nb : Nat} (hf : rewindFault s nb = none) : rewind nb s = .next (afterRewind nb s) := by
  rw [rewind, hf, performUnless_none, afterRewind]

/-- A rewind is not refused where it stays within `RD + CAP` in SILENT mode, or within `CAP` and the history in CHECKED
mode. -/
theorem rewindFault_eq_none_iff {nb : Nat} : rewindFault s nb = none ↔
    (s.mode = .silent → nb ≤ s.rd + s.cap) ∧ (s.mode = .checked → nb ≤ s.cap ∧ nb ≤ s.hist) := by
  cases hm : s.mode with
  | silent =>
    rw [rewindFault_silent hm]
    split_ifs <;> simp <;> omega
  | checked =>
    rw [rewindFault_checked hm]
    split_ifs <;> simp <;> omega

/-- The single wrap is the remainder of the signed difference, wherever the rewind is allowed. -/
theorem rewoundCursor_eq_emod {nb : Nat} (hr : s.rd < s.cap) (h : nb ≤ s.rd + s.cap) :
    rewoundCursor s nb = (((s.rd : Int) - nb) % s.cap).toNat := by
  simp only [rewoundCursor]
  split_ifs with hneg
  · rw [← Int.add_emod_right, Int.emod_eq_of_lt (by omega) (by omega)]
  · rw [Int.emod_eq_of_lt (by omega) (by omega)]

theorem sub_u32 (w : Word) (n : Nat) : w - u32 n = BitVec.ofInt 32 ((w.toNat : Int) - n) := by
  rw [Int.sub_eq_add_neg, BitVec.ofInt_add, BitVec.ofInt_neg, BitVec.ofInt_natCast, BitVec.ofInt_natCast,
    BitVec.ofNat_toNat, BitVec.setWidth_eq, BitVec.sub_eq_add_neg, u32]

/-- A rewind's move as remainders: the cursor modulo `CAP`, the counter modulo 2^32. -/
theorem moveBack_eq {nb : Nat} (hr : s.rd < s.cap) (h : nb ≤ s.rd + s.cap) : moveBack nb s = { s with
    rd := (((s.rd : Int) - nb) % s.cap).toNat
    tot := BitVec.ofInt 32 ((s.tot.toNat : Int) - nb) } := by
  rw [moveBack, rewoundCursor_eq_emod hr h, sub_u32]

/-- A performed rewind in SILENT mode: `RD`, `TOT` and the response. -/
theorem afterRewind_silent (hm : s.mode = .silent) (hr : s.rd < s.cap) {nb : Nat} (hnb : nb ≤ s.rd + s.cap) :
    afterRewind nb s = { s with
      rd := (((s.rd : Int) - nb) % s.cap).toNat
      tot := BitVec.ofInt 32 ((s.tot.toNat : Int) - nb)
      rsp := some { status := .ok, data := 0 } } := by
  rw [afterRewind, countRewind_silent (moveBack nb s) nb hm, moveBack_eq hr hnb]
  rfl

/-- A performed rewind in CHECKED mode: the counts too. -/
theorem afterRewind_checked (hm : s.mode = .checked) (hr : s.rd < s.cap) {nb : Nat} (hnb : nb ≤ s.rd + s.cap) :
    afterRewind nb s = { s with
      rd := (((s.rd : Int) - nb) % s.cap).toNat
      tot := BitVec.ofInt 32 ((s.tot.toNat : Int) - nb)
      avail := s.avail + nb
      hist := s.hist - nb
      rsp := some { status := .ok, data := 0 } } := by
  rw [afterRewind, countRewind_checked (moveBack nb s) nb hm, moveBack_eq hr hnb]
  rfl

/-- An opcode above a command's operand spells the command, rule R74. -/
theorem decode_or_setWidth {k : Word} (hk : k.toNat = i.opcode.toNat * 2 ^ 28) :
    decode (k ||| i.arg.setWidth 32) = .ok i := by
  rw [← BitVec.ofNat_toNat]
  exact (decodeEncodeAgree _ _).mpr (encode_eq_or hk rfl).symm

/-- Settles O16: both commands are the core on their bit count, whose fault condition decides between the fault entry and the
performed rewind, which the mode gives. -/
theorem rewindMeaning : Obligations.RewindMeaning := by
  refine ⟨fun n => ⟨decode_or_setWidth (i := .rewbits n) (by simp [Instr.opcode]),
    decode_or_setWidth (i := .rewbytes n) (by simp [Instr.opcode])⟩, fun s i nb hs hi => ?_⟩
  rw [exec_rewindsBy hi]
  refine ⟨fun hm hfar => ?_, fun hm hnb => ?_, fun hm hbig => ?_, fun hm hcap hpast => ?_, fun hm hcap hhist => ?_⟩
  · exact rewind_faulted (by rw [rewindFault_silent hm, if_pos hfar])
  · have hf : rewindFault s nb = none := by rw [rewindFault_silent hm, if_neg (Nat.not_lt.mpr hnb)]
    rw [rewind_performed hf, afterRewind_silent hm hs.rd_lt hnb]
  · exact rewind_faulted (by rw [rewindFault_checked hm, if_pos hbig])
  · exact rewind_underflow hm hcap hpast
  · have hf : rewindFault s nb = none := by
      rw [rewindFault_checked hm, if_neg (Nat.not_lt.mpr hcap), if_neg (Nat.not_lt.mpr hhist)]
    rw [rewind_performed hf, afterRewind_checked hm hs.rd_lt (rewindFault_none_le hf)]

/-- Settles O17: neither operand is cut to 16 bits, so both commands are the core on the same count. -/
theorem rewbytesEqualsRewbits : Obligations.RewbytesEqualsRewbits := by
  have hbytes : ∀ (s : State) (n : Nat), n ≤ 65535 → exec (.rewbytes (BitVec.ofNat 16 n)) s = rewind (8 * n) s := by
    intro s n hn
    rw [exec_rewbytes_eq, BitVec.toNat_ofNat, Nat.mod_eq_of_lt (by omega)]
  refine fun s n => ⟨fun hn => ?_, hbytes s n⟩
  rw [hbytes s n (by omega), exec_rewbits_eq, BitVec.toNat_ofNat, Nat.mod_eq_of_lt (by omega)]

/-! ### the fault of a command -/

/-- The fault condition of a command, rule R152. -/
def commandFault (s : State) : Instr → Option Cause
  | .pos => none
  | .readn n => readFault s n.toNat
  | .read1 => read1Fault s
  | .wr8 _ => writeFault s
  | .rewbits n => rewindFault s n.toNat
  | .rewbytes n => rewindFault s (8 * n.toNat)

theorem RewindsBy.commandFault_eq {nb : Nat} (hi : RewindsBy i nb) (s : State) :
    commandFault s i = rewindFault s nb := by
  obtain ⟨n, rfl, rfl⟩ | ⟨n, rfl, rfl⟩ := hi <;> rfl

/-- Where its fault condition holds, a command is the fault entry. -/
theorem exec_faulted {c : Cause} (hf : commandFault s i = some c) : exec i s = .next (faultEntry c s) := by
  cases i with
  | pos => cases hf
  | readn n => exact exec_readn_faulted hf
  | read1 => rw [exec, execRead1, show read1Fault s = some c from hf, performUnless_some]
  | wr8 v => exact exec_wr8_faulted hf v
  | rewbits n => exact rewind_faulted hf
  | rewbytes n => exact rewind_faulted hf

/-- Where it does not, a command of a well-formed state ends well. -/
theorem State.WF.exec_performs (hs : s.WF) (hf : commandFault s i = none) :
    ∃ t, exec i s = .next t ∧ Performs s i t := by
  cases i with
  | pos => exact ⟨_, exec_pos_eq s, .pos⟩
  | readn n =>
    refine ⟨_, exec_readn_performed hf, .read _ (.inl ⟨n, rfl, rfl⟩) fun hm => ?_⟩
    exact (readFault_none_checked hm hf).2.2
  | read1 =>
    refine ⟨Machine.afterRead 1 ((s.cell s.rd).setWidth 32) s, ?_, .read _ (.inr ⟨rfl, rfl⟩) fun hm => ?_⟩
    · rw [exec_read1_eq hs.rd_lt, show read1Fault s = none from hf, performUnless_none]
    · exact read1Fault_none_checked hm hf
  | wr8 v =>
    obtain ⟨m, hm, -⟩ := exists_writtenRing hs.ringWf hs.wr_le v
    refine ⟨_, ?_, .write hf hm⟩
    rw [exec_wr8_writtenRing, show writeFault s = none from hf, hm, performUnless_none, Option.elim_some]
  | rewbits n => exact ⟨_, rewind_performed hf, .rewind (.inl ⟨n, rfl, rfl⟩) hf⟩
  | rewbytes n => exact ⟨_, rewind_performed hf, .rewind (.inr ⟨n, rfl, rfl⟩) hf⟩

/-! ### SILENT mode -/

/-- A rewind of more than `RD + CAP` bits, rule R144. -/
def RewindsTooFar (s : State) (i : Instr) : Prop := ∃ nb, RewindsBy i nb ∧ s.rd + s.cap < nb

/-- In SILENT mode only a rewind too far has a fault condition that holds. -/
theorem commandFault_silent_of_not_tooFar (hm : s.mode = .silent) (hi : ¬RewindsTooFar s i) :
    commandFault s i = none := by
  have hrewind : ∀ nb, RewindsBy i nb → commandFault s i = none := by
    intro nb hnb
    rw [hnb.commandFault_eq, rewindFault_silent hm, if_neg fun hfar => hi ⟨nb, hnb, hfar⟩]
  cases i with
  | pos => rfl
  | readn n => exact readFault_silent hm _
  | read1 => exact read1Fault_silent hm
  | wr8 v => exact writeFault_silent hm
  | rewbits n => exact hrewind _ (.inl ⟨n, rfl, rfl⟩)
  | rewbytes n => exact hrewind _ (.inr ⟨n, rfl, rfl⟩)

/-- Everything a command of a well-formed state can do in SILENT mode. -/
theorem State.WF.exec_silent_cases (hs : s.WF) (hm : s.mode = .silent) (h : exec i s = .next t) :
    (RewindsTooFar s i ∧ t = Machine.faultEntry .invalidArg s) ∨ (¬RewindsTooFar s i ∧ Performs s i t) := by
  by_cases hfar : RewindsTooFar s i
  · obtain ⟨nb, hnb, hlt⟩ := hfar
    have hf : commandFault s i = some .invalidArg := by rw [hnb.commandFault_eq, rewindFault_silent hm, if_pos hlt]
    rw [exec_faulted hf] at h
    exact .inl ⟨⟨nb, hnb, hlt⟩, by injection h with h; exact h.symm⟩
  · obtain ⟨u, hu, hp⟩ := hs.exec_performs (commandFault_silent_of_not_tooFar hm hfar)
    obtain rfl : u = t := by injection hu.symm.trans h
    exact .inr ⟨hfar, hp⟩

/-- A rewind that is not too far moves the cursor back modulo `CAP`. -/
theorem State.WF.rd_of_rewind_silent (hs : s.WF) (hm : s.mode = .silent) (h : exec i s = .next t) {nb : Nat}
    (hi : RewindsBy i nb) (hle : nb ≤ s.rd + s.cap) : t.rd = (((s.rd : Int) - nb) % s.cap).toNat := by
  have hf : rewindFault s nb = none := by rw [rewindFault_silent hm, if_neg (Nat.not_lt.mpr hle)]
  rw [exec_rewindsBy hi, rewind_performed hf] at h
  obtain rfl : Machine.afterRewind nb s = t := by injection h
  rw [afterRewind_silent hm hs.rd_lt hle]

/-- Settles O18: an illegal word faults, a command does so where it is a rewind too far, and another rewind is the performed
one. -/
theorem silentModeFaults : Obligations.SilentModeFaults := by
  intro s t w hs hm hf h
  cases hd : decode w with
  | error e =>
    rw [performWord_of_decode_error hf hd] at h
    obtain rfl : faultEntry .illegal s = t := by injection h
    simp [Except.toOption, Cause.status, Status.code]
  | ok i =>
    rw [performWord_of_decode_ok hf hd] at h
    have hfar : (∃ j nb, Except.ok i = (.ok j : Except DecodeError Instr) ∧ RewindsBy j nb ∧ s.rd + s.cap < nb) ↔
        RewindsTooFar s i := by simp [RewindsTooFar]
    have hlegal : (Except.ok i : Except DecodeError Instr).toOption ≠ none := Option.some_ne_none i
    rw [hfar, or_iff_right hlegal]
    refine ⟨?_, fun hill => absurd hill hlegal, fun hi => ?_, fun j nb hj => ?_⟩
    · obtain ⟨hi, rfl⟩ | ⟨hi, hp⟩ := hs.exec_silent_cases hm h
      · exact iff_of_true rfl hi
      · obtain ⟨hflt, -⟩ := hp.keeps_fault
        exact iff_of_false (by simp [hflt, hf]) hi
    · obtain ⟨-, rfl⟩ | ⟨hi', -⟩ := hs.exec_silent_cases hm h
      · rfl
      · exact absurd hi hi'
    · obtain rfl : i = j := by injection hj
      exact hs.rd_of_rewind_silent hm h

/-! ### a read undone -/

theorem respond_respond (st st' : Status) (d d' : Word) (s : State) :
    respond st d (respond st' d' s) = respond st d s := rfl

theorem advanceRead_respond (n : Nat) (st : Status) (d : Word) (s : State) :
    advanceRead n (respond st d s) = respond st d (advanceRead n s) := rfl

theorem moveBack_respond (n : Nat) (st : Status) (d : Word) (s : State) :
    moveBack n (respond st d s) = respond st d (moveBack n s) := rfl

theorem countRead_respond (n : Nat) (st : Status) (d : Word) (s : State) :
    countRead n (respond st d s) = respond st d (countRead n s) := by
  cases hm : s.mode <;> simp [countRead, respond, hm]

theorem countRewind_respond (n : Nat) (st : Status) (d : Word) (s : State) :
    countRewind n (respond st d s) = respond st d (countRewind n s) := by
  cases hm : s.mode <;> simp [countRewind, respond, hm]

/-- A rewind's move by as many bits as a read's takes it back, within one turn of the ring. -/
theorem moveBack_advanceRead (hr : s.rd < s.cap) {n : Nat} (hn : n ≤ s.cap) : moveBack n (advanceRead n s) = s := by
  have hrd : rewoundCursor (advanceRead n s) n = s.rd := by
    rw [rewoundCursor, advanceRead_rd, advanceRead_cap, ringIdx_eq]
    obtain hlt | hge := Nat.lt_or_ge (s.rd + n) s.cap
    · rw [Nat.mod_eq_of_lt hlt]
      split_ifs <;> omega
    · rw [Nat.mod_eq_sub_mod hge, Nat.mod_eq_of_lt (by omega)]
      split_ifs <;> omega
  rw [moveBack, hrd, advanceRead_tot, BitVec.add_sub_cancel]
  rfl

theorem moveBack_countRead (n m : Nat) (s : State) : moveBack n (countRead m s) = countRead m (moveBack n s) := by
  cases hm : s.mode <;> simp [countRead, moveBack, rewoundCursor, State.cap, hm]

/-- A rewind by as many bits as a read gives the counts back. -/
theorem countRewind_countRead {n : Nat} (ha : s.mode = .checked → n ≤ s.avail) :
    countRewind n (countRead n s) = s := by
  cases hm : s.mode with
  | silent => rw [countRead_silent s n hm, countRewind_silent s n hm]
  | checked =>
    rw [countRead_checked s n hm, countRewind_checked { s with avail := s.avail - n, hist := s.hist + n } n hm,
      Nat.sub_add_cancel (ha hm), Nat.add_sub_cancel]

/-- A rewind by as many bits as were read restores everything but the response. -/
theorem afterRewind_afterRead (hr : s.rd < s.cap) {n : Nat} (hn : n ≤ s.cap) (ha : s.mode = .checked → n ≤ s.avail)
    (d : Word) : afterRewind n (afterRead n d s) = respond .ok 0 s := by
  rw [afterRewind, afterRead, moveBack_respond, countRewind_respond, respond_respond, moveBack_countRead,
    moveBack_advanceRead hr hn, countRewind_countRead ha]

theorem afterRead_respond (n : Nat) (st : Status) (d d' : Word) (s : State) :
    afterRead n d (respond st d' s) = afterRead n d s := by
  rw [afterRead, afterRead, advanceRead_respond, countRead_respond, respond_respond]

theorem pack_respond (st : Status) (d : Word) (s : State) (base n : Nat) :
    pack (respond st d s) base n = pack s base n := pack_congr fun _ _ => by simp

/-- A response that waits makes no difference to READN, which replaces it. -/
theorem exec_readn_respond (n : Arg) (st : Status) (d : Word) (s : State) :
    exec (.readn n) (respond st d s) = exec (.readn n) s := by
  have hf : readFault (respond st d s) n.toNat = readFault s n.toNat := rfl
  rw [exec_readn_eq, exec_readn_eq, hf, respond_rd, pack_respond, afterRead_respond]
  cases readFault s n.toNat <;> rfl

/-- A READN that answers `OK` was not refused. -/
theorem exec_readn_ok {n : Arg} {d : Word} (h : exec (.readn n) s = .next t)
    (hr : t.rsp = some { status := .ok, data := d }) :
    readFault s n.toNat = none ∧ t = afterRead n.toNat (u32 (pack s s.rd n.toNat)) s := by
  obtain ⟨c, -, rfl⟩ | hread := exec_readn_cases h
  · simp [c.status_ne_ok] at hr
  · exact hread

/-- A read leaves its bits in the history, so as many can be rewound, rule R145. -/
theorem rewindFault_afterRead {n : Nat} (hn : n ≤ s.cap) (d : Word) : rewindFault (afterRead n d s) n = none := by
  refine rewindFault_eq_none_iff.mpr ⟨fun _ => ?_, fun hm => ?_⟩
  · simp only [afterRead, respond_cap, countRead_cap, advanceRead_cap]
    omega
  · have hm' : s.mode = .checked := by simpa using hm
    simp [hm', hn]

/-- Settles O19: the rewind is not refused and restores the state before the read but for its own response, so the second
read is the first. -/
theorem rewindIdempotence : Obligations.RewindIdempotence := by
  intro s t n d hs _ hcap h hr
  obtain ⟨hf, rfl⟩ := exec_readn_ok h hr
  have ha : s.mode = .checked → n.toNat ≤ s.avail := fun hm => (readFault_none_checked hm hf).2.2
  refine ⟨_, (exec_rewbits_eq n _).trans (rewind_performed (rewindFault_afterRead hcap _)), rfl, ?_⟩
  rw [afterRewind_afterRead hs.rd_lt hcap ha, exec_readn_respond]
  exact h

end Sys2Proof.Machine
end

section
/-! Faults and the halt (spec/60_exceptions.md): the order of a word's checks (rule R153, R155), the table of the fault
conditions (rule R152), what a fault changes (rule R154), the faulted block until its reset (rule R156), and the idle block
(rule R161). -/

namespace Sys2Proof.Machine

variable {s t : State} {i : Instr} {w : Word}

/-! ### the order of the checks -/

/-- Settles O29: one lemma for each branch of the word. -/
theorem commandWordPerformed : Obligations.CommandWordPerformed := fun _ w =>
  ⟨fun hf => performWord_of_halted hf w, fun hf _ hd => performWord_of_decode_error hf hd,
    fun hf _ hd => performWord_of_decode_ok hf hd⟩

theorem performWord_faulted {c : Cause} (hf : s.flt = false) (hd : decode w = .ok i) (hc : commandFault s i = some c) :
    performWord w s = .next (faultEntry c s) :=
  (performWord_of_decode_ok hf hd).trans (exec_faulted hc)

/-- In CHECKED mode a count out of range comes before the unread bits. -/
theorem readFault_invalidArg (hm : s.mode = .checked) {n : Nat} (hn : n = 0 ∨ s.cap < n) :
    readFault s n = some .invalidArg := by
  rw [readFault_checked hm, if_pos hn]

/-- In CHECKED mode a rewind beyond `CAP` comes before the history. -/
theorem rewindFault_invalidArg (hm : s.mode = .checked) {nb : Nat} (hnb : s.cap < nb) :
    rewindFault s nb = some .invalidArg := by
  rw [rewindFault_checked hm, if_pos hnb]

/-- Settles O28: the halt check and the decoding come first, then the count, whatever `AVAIL` and `HIST` hold. -/
theorem faultPriority : Obligations.FaultPriority := by
  refine fun s w => ⟨fun hf => performWord_of_halted hf w, fun hf hill => ?_, fun n hf hm hd hn => ?_,
    fun i nb hf hm hd hi hnb => ?_⟩
  · cases hd : decode w with
    | error e => exact performWord_of_decode_error hf hd
    | ok i => simp [hd, Except.toOption] at hill
  · exact performWord_faulted hf hd (readFault_invalidArg hm hn)
  · exact performWord_faulted hf hd ((hi.commandFault_eq s).trans (rewindFault_invalidArg hm hnb))

/-! ### the table of the fault conditions -/

/-- The number the table of rule R152 has for a fault condition: the code of its cause, or 0. -/
def causeNumber : Option Cause → Nat
  | none => 0
  | some c => c.status.code.toNat

theorem causeNumber_ite (p : Prop) [Decidable p] (a b : Option Cause) :
    causeNumber (if p then a else b) = if p then causeNumber a else causeNumber b := apply_ite causeNumber p a b

theorem faultCode_of_decode_error {e : DecodeError} (hd : decode w = .error e) : faultCode s w = 1 := by
  simp [faultCode, hd]

/-- The table of rule R152 is the model's fault condition, command by command and mode by mode. -/
theorem faultCode_of_decode_ok (hd : decode w = .ok i) : faultCode s w = causeNumber (commandFault s i) := by
  cases hm : s.mode with
  | silent =>
    cases i <;> simp only [faultCode, hd, hm, commandFault, readFault_silent hm, read1Fault_silent hm, writeFault_silent hm,
      rewindFault_silent hm, causeNumber_ite] <;> rfl
  | checked =>
    cases i <;> simp only [faultCode, hd, hm, commandFault, readFault_checked hm, read1Fault_checked hm,
      writeFault_checked hm, rewindFault_checked hm, causeNumber_ite] <;> rfl

/-- `FLT` and `CAUSE` agree with a fault number, rule R31. -/
def ShowsFault (t : State) (n : Nat) : Prop := t.cause.toNat = n ∧ (t.flt = true ↔ n ≠ 0)

theorem showsFault_faultEntry (s : State) (c : Cause) : ShowsFault (faultEntry c s) (causeNumber (some c)) :=
  ⟨rfl, iff_of_true rfl (by cases c <;> decide)⟩

/-- A command that ends well shows no fault, as the state before it. -/
theorem Performs.showsFault_zero (hp : Performs s i t) (hs : s.WF) (hf : s.flt = false) : ShowsFault t 0 := by
  obtain ⟨hflt, hcause⟩ := hp.keeps_fault
  exact ⟨by rw [hcause, hs.noFault hf]; rfl, by simp [hflt, hf]⟩

/-- Settles O27: an illegal word shows `ILLEGAL`, a command whose condition holds its cause, and one that meets none of its
conditions is performed. -/
theorem faultConditionTable : Obligations.FaultConditionTable := by
  intro s t w hs hf h
  change ShowsFault t (faultCode s w)
  cases hd : decode w with
  | error e =>
    rw [performWord_of_decode_error hf hd] at h
    obtain rfl : faultEntry .illegal s = t := by injection h
    rw [faultCode_of_decode_error hd]
    exact showsFault_faultEntry s .illegal
  | ok i =>
    rw [faultCode_of_decode_ok hd]
    cases hc : commandFault s i with
    | some c =>
      rw [performWord_faulted hf hd hc] at h
      obtain rfl : faultEntry c s = t := by injection h
      exact showsFault_faultEntry s c
    | none =>
      obtain ⟨u, hu, hp⟩ := hs.exec_performs hc
      rw [performWord_of_decode_ok hf hd, hu] at h
      obtain rfl : u = t := by injection h
      exact hp.showsFault_zero hs hf

/-! ### what a fault changes -/

/-- Settles O26: a word that leaves `FLT` at 1 was no performed command, so it ended in the fault entry. -/
theorem faultsArePrecise : Obligations.FaultsArePrecise := by
  intro s t w hf h hflt
  obtain ⟨hhalt, -⟩ | ⟨-, -, rfl⟩ | ⟨-, i, -, he⟩ := performWord_cases h
  · simp [hf] at hhalt
  · exact ⟨.illegal, rfl⟩
  · obtain ⟨-, c, rfl⟩ | hp := exec_cases he
    · exact ⟨c, rfl⟩
    · obtain ⟨hkept, -⟩ := hp.keeps_fault
      simp [hkept, hf] at hflt

/-! ### the faulted block -/

theorem idle_keeps_fault (b : Block) : b.idle.flt = b.flt ∧ b.idle.cause = b.cause := by
  cases hb : b.busy with
  | false => rw [b.idle_of_not_busy hb]; exact ⟨rfl, rfl⟩
  | true => rw [b.idle_of_busy hb]; exact ⟨rfl, rfl⟩

/-- Settles O30: of everything a step can do only the reset writes `FLT` or `CAUSE` of a faulted block, whose words are
refused. -/
theorem onlyResetClearsFault : Obligations.OnlyResetClearsFault := by
  intro s t hf h
  suffices hkept : (t.flt = s.flt ∧ t.cause = s.cause) ∨
      ∃ rest, s.moves = .reset :: rest ∧ t = { State.resetTo s.cfg s.strap with moves := rest } by rwa [hf] at hkept
  obtain ⟨-, ⟨-, rfl⟩ | ⟨w, rest, -, hw⟩ | ⟨rest, -, rfl⟩ | ⟨m, rest, -, rfl⟩ | hreset⟩ := step_cases h
  · exact .inl (idle_keeps_fault s.toBlock)
  · obtain ⟨-, rfl⟩ | ⟨-, -, rfl⟩ | ⟨-, -, hp⟩ := hw
    · exact .inl ⟨rfl, rfl⟩
    · exact .inl ⟨rfl, rfl⟩
    · rw [performWord_of_halted (s := setMoves rest s) hf w] at hp
      obtain rfl : refuseHalted (setMoves rest s) = t := by injection hp
      exact .inl ⟨rfl, rfl⟩
  · exact .inl ⟨rfl, rfl⟩
  · exact .inl ⟨rfl, rfl⟩
  · exact .inr hreset

/-- The state with more responses among those taken. -/
def addTaken (rs : List Response) (s : State) : State := { s with taken := s.taken ++ rs }

theorem addTaken_nil (s : State) : addTaken [] s = s := by rw [addTaken, List.append_nil]

theorem addTaken_addTaken (rs rs' : List Response) (s : State) : addTaken rs' (addTaken rs s) = addTaken (rs ++ rs') s := by
  simp only [addTaken, List.append_assoc]

/-- A response put on a free port and taken leaves the block as it was. -/
theorem takeResponse_respond (hr : s.rsp = none) (st : Status) (d : Word) :
    takeResponse (respond st d s) = addTaken [{ status := st, data := d }] s := by
  rw [takeResponse_some _ (respond_rsp s st d), ← hr]
  rfl

/-- Settles O31, by induction on the words: each is refused, and its response taken leaves the same faulted block. -/
theorem faultedRunAnswersHalted : Obligations.FaultedRunAnswersHalted := by
  intro s ws
  change _ → _ → performAll ws s = .next (addTaken (List.replicate ws.length { status := .halted, data := 0 }) s)
  induction ws generalizing s with
  | nil => exact fun _ _ => congrArg Host.Outcome.next (addTaken_nil s).symm
  | cons w ws ih =>
    intro hf hr
    rw [performAll_cons_of_next ws (performWord_of_halted hf w), refuseHalted, takeResponse_respond hr,
      ih (addTaken _ s) hf hr, addTaken_addTaken]
    rfl

/-! ### the idle block -/

/-- Settles O45: with no fill in progress the idle block is the block itself. -/
theorem idleStepHoldsState : Obligations.IdleStepHoldsState := fun s hl hm hb => by
  rw [step_idle hl hm, Block.idle_of_not_busy _ hb, withBlock_self]

end Sys2Proof.Machine
end

section
/-! Reset (spec/70_reset_and_hazards.md): the state a reset reaches (rule R170), the zero-fill as a loop of one-cell writes
(rule R170), `MODE` between resets (rule R171), and the reads before any write (rule R175, R177). -/

namespace Sys2Proof.Machine

variable {s t : State} {i : Instr} {m : Memory}

/-! ### the zero-fill -/

/-- The loop of rule R170 up to cell `n`: 0 written to each cell in turn. -/
def zeroFill (n : Nat) (m : Memory) : Memory := (List.range n).foldl (fun m i => Memory.write m i 0) m

theorem zeroFill_succ (n : Nat) (m : Memory) : zeroFill (n + 1) m = Memory.write (zeroFill n m) n 0 := by
  simp only [zeroFill, List.range_succ, List.foldl_append, List.foldl_cons, List.foldl_nil]

theorem zeroFill_wf (hm : Memory.wf m = true) : ∀ n, Memory.wf (zeroFill n m) = true
  | 0 => hm
  | n + 1 => by
    rw [zeroFill_succ]
    exact Memory.write_wf (zeroFill_wf hm n) n 0

/-- The loop leaves 0 in the cells it has passed and does not touch the others. -/
theorem read_zeroFill (hm : Memory.wf m = true) (j : Nat) : ∀ n,
    Memory.read (zeroFill n m) j = if j < n then 0 else Memory.read m j
  | 0 => rfl
  | n + 1 => by
    rw [zeroFill_succ, Memory.read_write (zeroFill_wf hm n), read_zeroFill hm j n]
    by_cases hj : j = n
    · rw [if_pos hj, if_pos (by omega)]
    · rw [if_neg hj]
      exact if_congr (by omega) rfl rfl

/-- Settles O33: the loop leaves a canonical storage that reads 0 in every cell, as the empty one does. -/
theorem zeroFillEmptiesRing : Obligations.ZeroFillEmptiesRing := by
  intro cap m hwf hbelow
  refine Memory.ext_of_wf (zeroFill_wf hwf cap) (Memory.wf_reset _ _) fun j => ?_
  have hzero : Memory.read (zeroFill cap m) j = 0 := by
    rw [read_zeroFill hwf]
    split_ifs with hj
    · rfl
    · exact Memory.read_of_below (Nat.not_lt.mp hj) hbelow
  exact hzero.trans (Memory.read_nil j).symm

/-! ### the check mode -/

theorem Block.idle_mode (b : Block) : b.idle.mode = b.mode := by
  cases hb : b.busy with
  | false => rw [b.idle_of_not_busy hb]
  | true => rw [b.idle_of_busy hb, finishFill_mode]

theorem performWord_keeps_mode {w : Word} (h : performWord w s = .next t) : t.mode = s.mode := by
  obtain ⟨-, rfl⟩ | ⟨-, -, rfl⟩ | ⟨-, i, -, he⟩ := performWord_cases h
  · rfl
  · rfl
  · exact (exec_keeps_surroundings he).1

/-- Every act of the host but a reset keeps `MODE`. -/
theorem step_keeps_mode (h : step s = .next t) : t.mode = s.mode ∨ ∃ rest, s.moves = .reset :: rest := by
  obtain ⟨-, ⟨-, rfl⟩ | ⟨w, rest, -, hw⟩ | ⟨rest, -, rfl⟩ | ⟨m, rest, -, rfl⟩ | ⟨rest, hm, -⟩⟩ := step_cases h
  · exact .inl s.toBlock.idle_mode
  · obtain ⟨-, rfl⟩ | ⟨-, -, rfl⟩ | ⟨-, -, hp⟩ := hw
    · exact .inl rfl
    · exact .inl rfl
    · exact .inl (performWord_keeps_mode (s := setMoves rest s) hp)
  · exact .inl rfl
  · exact .inl rfl
  · exact .inr ⟨rest, hm⟩

/-- Settles O34: no act but a reset writes `MODE`, a reset loads the input, and driving the input writes only the input. -/
theorem modeChangesOnlyAtReset : Obligations.ModeChangesOnlyAtReset := by
  intro s t h
  obtain ⟨hl, -⟩ := step_cases h
  refine ⟨step_keeps_mode h, fun rest hm => ?_, fun m rest hm => ?_⟩
  · rw [step_reset hl hm] at h
    obtain rfl : { State.resetTo s.cfg s.strap with moves := rest } = t := by injection h
    rfl
  · rw [step_driveCheckMode hl hm] at h
    injection h with h
    exact h.symm

/-! ### before any write -/

/-- What holds until the first WR8 after a reset: no cell is set, no bit is unread or retained. -/
def Unwritten (s : State) : Prop := s.ring = [] ∧ s.avail = 0 ∧ s.hist = 0

theorem countRead_eq_self {n : Nat} (hn : s.mode = .checked → n = 0) : countRead n s = s := by
  cases hm : s.mode with
  | silent => exact countRead_silent s n hm
  | checked =>
    rw [countRead_checked s n hm, hn hm]
    rfl

theorem countRewind_eq_self {nb : Nat} (hnb : s.mode = .checked → nb = 0) : countRewind nb s = s := by
  cases hm : s.mode with
  | silent => exact countRewind_silent s nb hm
  | checked =>
    rw [countRewind_checked s nb hm, hnb hm]
    rfl

/-- With no bit unread or retained, the reads and rewinds that CHECKED mode performs are of no bits. -/
theorem Unwritten.of_performs (hu : Unwritten s) (hi : ∀ v, i ≠ .wr8 v) (hp : Performs s i t) : Unwritten t := by
  have ⟨_, havail, hhist⟩ := hu
  cases hp with
  | pos => exact hu
  | @read _ n d _ hn =>
    have hcount : countRead n (advanceRead n s) = advanceRead n s :=
      countRead_eq_self fun hm => Nat.le_zero.mp (havail ▸ hn hm)
    rw [afterRead, hcount]
    exact hu
  | @rewind _ nb _ hf =>
    have hcount : countRewind nb (moveBack nb s) = moveBack nb s :=
      countRewind_eq_self fun hm => Nat.le_zero.mp (hhist ▸ (rewindFault_none_checked (s := s) hm hf).2)
    rw [afterRewind, hcount]
    exact hu
  | write => exact absurd rfl (hi _)

theorem Unwritten.of_exec (hu : Unwritten s) (hi : ∀ v, i ≠ .wr8 v) (h : exec i s = .next t) : Unwritten t := by
  obtain ⟨-, c, rfl⟩ | hp := exec_cases h
  · exact hu
  · exact hu.of_performs hi hp

/-- Where no cell is set every packed value is 0. -/
theorem pack_of_ring_nil (hr : s.ring = []) (base : Nat) : ∀ n, pack s base n = 0
  | 0 => rfl
  | n + 1 => by
    have hcell : s.cell (ringIdx s base n) = 0 := by rw [State.cell, hr, Memory.read_nil]
    rw [pack_succ, pack_of_ring_nil hr base n, hcell]
    rfl

theorem exec_readn_silent_of_ring_nil (hm : s.mode = .silent) (hr : s.ring = []) (n : Arg) :
    exec (.readn n) s = .next (afterRead n.toNat 0 s) := by
  rw [exec_readn_performed (readFault_silent hm _), pack_of_ring_nil hr]
  rfl

theorem exec_readn_underflow (hm : s.mode = .checked) (ha : s.avail = 0) {n : Arg} (h1 : 1 ≤ n.toNat)
    (hc : n.toNat ≤ s.cap) : exec (.readn n) s = .next (faultEntry .underflow s) := by
  obtain ⟨-, -, -, hunderflow, -⟩ := readnMeaning s n
  exact hunderflow hm h1 hc (ha.trans_lt h1)

/-- Settles O35: only a write makes a cell or a count other than the reset's, and READ1 is READN 1. -/
theorem unwrittenCellsReadZero : Obligations.UnwrittenCellsReadZero := by
  refine ⟨fun _ _ => ⟨rfl, rfl, rfl⟩, fun i s t hi hring havail hhist h => ?_, fun s hs => ⟨fun hm hr => ?_, fun hm ha => ?_⟩⟩
  · exact Unwritten.of_exec ⟨hring, havail, hhist⟩ hi h
  · have hread : ∀ n : Arg, ∃ t, exec (.readn n) s = .next t ∧ t.rsp = some { status := .ok, data := 0 } :=
      fun n => ⟨_, exec_readn_silent_of_ring_nil hm hr n, rfl⟩
    rw [read1EqualsReadn1 s hs]
    exact ⟨hread, hread 1⟩
  · rw [read1EqualsReadn1 s hs]
    exact ⟨fun n h1 hc => exec_readn_underflow hm ha h1 hc, exec_readn_underflow hm ha (Nat.le_refl 1) (cap_pos s)⟩

/-! ### the state a reset reaches -/

/-- Settles O32: the step is the reset state of the same parameters beside the host's later acts, whose registers are read off. -/
theorem resetReachesResetState : Obligations.ResetReachesResetState := by
  intro s rest hl hm
  refine ⟨_, step_reset hl hm, resetTo_cell s.cfg s.strap, ?_⟩
  exact ⟨rfl, rfl, rfl, rfl, rfl, rfl, rfl, rfl, rfl, rfl, rfl, rfl, rfl, rfl⟩

end Sys2Proof.Machine
end
